-- ==== Sys2Proof/Word.lean ====
section
/-! DEFINITION. The word types of PGL-CORE. Everything the spec adds, masks or shows to the host as a word is a bit
vector; counts, sizes and bit indices are natural numbers; coordinates and the values the function layer takes are
integers. -/

namespace Sys2Proof

/-- A data register, a value the host moves, the 64-bit view of the buffer (REGW and VALW of R4, R6). -/
abbrev Word := BitVec 64

/-- One byte of the buffer (R5). -/
abbrev Byte := BitVec 8

/-- A command word (CMDW of R4, R45). -/
abbrev CommandWord := BitVec 32

end Sys2Proof
end

