-- ==== Sys2Proof/Config.lean ====
section
/-! DEFINITION. The parameters of R4 that the definitions use, and the one open parameter, RESET_DATA. -/

namespace Sys2Proof

/-- BUFLEN of R4: bytes in the buffer. -/
abbrev Config.bufLen : Nat := 8

/-- BUFBITS of R4: bit positions in the buffer. -/
abbrev Config.bufBits : Nat := 64

/-- One past the largest operand a command word can carry: OPW of R4 is 8 bits, unsigned. -/
abbrev Config.operandBound : Nat := 256

/-- RESET_DATA of R4: one value for each of the eleven data registers. -/
structure ResetData where
  buf    : Word
  val    : Word
  res    : Word
  lon    : Word
  lonmin : Word
  lonsec : Word
  lonms  : Word
  lat    : Word
  latmin : Word
  latsec : Word
  latms  : Word
deriving DecidableEq, Repr, Inhabited

/-- The values the model names for the launch state (DESIGN CHOICE, unsafe: log entry 1). -/
def ResetData.zero : ResetData :=
  { buf := 0, val := 0, res := 0, lon := 0, lonmin := 0, lonsec := 0, lonms := 0, lat := 0, latmin := 0, latsec := 0,
    latms := 0 }

/-- What the `k`-th Reset action draws for the eleven data registers: FREE VALUES, `eleven fresh, arbitrary 64-bit
values` (R27, R120; log entry 2). Nothing constrains them. -/
opaque Config.resetData : Nat → ResetData

end Sys2Proof
end

