-- ==== Sys2Proof/Syntax.lean ====
section
/-! DEFINITION. The commands of PGL-CORE: one constructor per row of the opcode table (R47). -/

namespace Sys2Proof

/-- A command. Operands stand in the order of R53, `begin` (here `start`) before `size`; they are the unsigned
immediates of R48, unscaled. -/
inductive Instr where
  /-- MASK size (R70). -/
  | mask (size : Nat)
  /-- RDF begin, size (R72). -/
  | rdf (start size : Nat)
  /-- WRF begin, size (R74). -/
  | wrf (start size : Nat)
  /-- ENC (R93). -/
  | enc
  /-- DEC (R95). -/
  | dec
deriving DecidableEq, Repr

end Sys2Proof
end

