-- ==== Sys2Proof/WellFormed.lean ====
section
/-! DEFINITION. Which commands have a word. An operand is an 8-bit unsigned field (R46, R48), and `An assembler must
reject an operand outside 0..255`, but must not reject a field that is out of bounds (R53). -/

namespace Sys2Proof

/-- Every operand is in 0..255 (R46, R53). Bounds against the buffer are not checked here: such words decode and then
raise OutOfBounds (R49). -/
def Instr.wellFormed : Instr → Bool
  | .mask size => decide (size < Config.operandBound)
  | .rdf start size => decide (start < Config.operandBound) && decide (size < Config.operandBound)
  | .wrf start size => decide (start < Config.operandBound) && decide (size < Config.operandBound)
  | .enc => true
  | .dec => true

end Sys2Proof
end

