-- ==== Sys2Proof/Decode.lean ====
section
/-! DEFINITION. The command word (format C, R46), its decoder (R49) and its encoder (R47). -/

namespace Sys2Proof

/-- Why a word matches no row of the opcode table (R49). On the unit all three raise IllegalCommand (R103). -/
inductive DecodeError where
  /-- `op` is not one of the five opcodes. -/
  | unknownOpcode (op : Nat)
  /-- The reserved field is not 0. -/
  | reservedNotZero (rsv : Nat)
  /-- An operand field the command does not use is not 0. -/
  | unusedOperandNotZero
deriving DecidableEq, Repr

/-- `op`, bits 31:24 (R46). -/
def CommandWord.op (w : CommandWord) : Nat := (w.extractLsb' 24 8).toNat

/-- `rsv`, bits 23:16 (R46). -/
def CommandWord.rsv (w : CommandWord) : Nat := (w.extractLsb' 16 8).toNat

/-- `size`, bits 15:8 (R46). -/
def CommandWord.size (w : CommandWord) : Nat := (w.extractLsb' 8 8).toNat

/-- `begin`, bits 7:0 (R46). -/
def CommandWord.start (w : CommandWord) : Nat := (w.extractLsb' 0 8).toNat

/-- `i`, when the fields it leaves unused are 0. -/
def whenUnusedZero (unused : Nat) (i : Instr) : Except DecodeError Instr :=
  if unused = 0 then .ok i else .error .unusedOperandNotZero

/-- The pure decoder of R49 and R52: total, and every word outside the five rows is rejected by name. -/
def decode (w : CommandWord) : Except DecodeError Instr :=
  if CommandWord.rsv w ≠ 0 then .error (.reservedNotZero (CommandWord.rsv w))
  else match CommandWord.op w with
    | 1 => whenUnusedZero (CommandWord.start w) (.mask (CommandWord.size w))
    | 2 => .ok (.rdf (CommandWord.start w) (CommandWord.size w))
    | 3 => .ok (.wrf (CommandWord.start w) (CommandWord.size w))
    | 4 => whenUnusedZero (CommandWord.size w + CommandWord.start w) .enc
    | 5 => whenUnusedZero (CommandWord.size w + CommandWord.start w) .dec
    | op => .error (.unknownOpcode op)

/-- `w = op * 2^24 + rsv * 2^16 + size * 2^8 + begin` with `rsv = 0` (R46). -/
def packCommand (op size start : Nat) : CommandWord :=
  BitVec.ofNat 32 (op * 2 ^ 24 + size * 2 ^ 8 + start)

/-- The word of a command (R47, R53); meant for well-formed commands. -/
def encode : Instr → CommandWord
  | .mask size => packCommand 1 size 0
  | .rdf start size => packCommand 2 size start
  | .wrf start size => packCommand 3 size start
  | .enc => packCommand 4 0 0
  | .dec => packCommand 5 0 0

/-- The 32-bit word with the low `nbits` bits of `w`, `none` if those do not fit a command word: every command is one
32-bit number (R45), without byte order (R34). -/
def tableWord (nbits w : Nat) : Option CommandWord :=
  if w % 2 ^ nbits < 2 ^ 32 then some (BitVec.ofNat 32 (w % 2 ^ nbits)) else none

/-- What the decoder reads from the bits of an opcode-table row. -/
def decodeTableWord (nbits w : Nat) : Option Instr :=
  match tableWord nbits w with
  | some word =>
    match decode word with
    | .ok i => some i
    | .error _ => none
  | none => none

end Sys2Proof
end

