-- ==== Sys2Proof/Machine/State.lean ====
section
/-! DEFINITION. The state of one unit (R10), the host actions it answers (R20), what it answers (R51), and the state
after Reset (R121). -/

namespace Sys2Proof.Machine

open Sys2Proof

/-- The unit's three faults (R100). Each is taken by `raise` as a NEXT state: STATUS records it and the action's
response reports it (R105). No outcome of `step` is ever `.fault`: every action has a defined effect, so the type's use
in `Outcome.fault` is empty. -/
inductive Fault where
  /-- OutOfBounds (R101): raised by RDF and WRF for a field not inside the buffer, and by MASK for a size above 64.
  Safe: it is what the spec states. -/
  | outOfBounds
  /-- IllegalCommand (R103): raised by Issue for a word that matches no row of the opcode table. Safe. -/
  | illegalCommand
  /-- IllegalAccess (R104): raised by HostWrite and HostRead for a register that may not be so accessed. Safe. -/
  | illegalAccess
deriving DecidableEq, Repr

/-- Why the model has no meaning for an instruction. No arm of `exec` answers it: all five commands are modelled. -/
inductive Refusal where
  /-- No meaning yet for the instruction of this mnemonic. Raised by an arm of `exec` only; safe. -/
  | notModelled (mnemonic : String)
deriving DecidableEq, Repr

/-- The response codes (R51). -/
inductive Response where
  | ok
  | outOfBounds
  | illegalCommand
  | illegalAccess
  | refused
deriving DecidableEq, Repr

/-- What an action gave back to the host. -/
inductive Reply where
  /-- Nothing: Reset `returns no response` (R120). -/
  | silent
  /-- A response without a value. -/
  | answer (r : Response)
  /-- OK with the 64-bit value of a successful HostRead (R23, R51). -/
  | value (v : Word)
deriving DecidableEq, Repr

/-- The four host actions (R20). A register number is 0..15, a command word 32 bits. -/
inductive Action where
  | reset
  | hostWrite (n : Fin 16) (v : Word)
  | hostRead (n : Fin 16)
  | issue (w : CommandWord)
deriving DecidableEq, Repr

/-- The twelve registers by name (R10). -/
inductive Reg where
  | buf | val | res | lon | lonmin | lonsec | lonms | lat | latmin | latsec | latms | status
deriving DecidableEq, Repr

/-- The twelve registers (R10), then three fields that are the MODEL's own, not the unit's: the host's actions still to
be performed, what the latest action gave back, and how many Resets have drawn data (log entries 2, 3 and 4). -/
structure State where
  /-- BUF, the buffer as its 64-bit view: bit index `k` is bit `k` (R6, R12). -/
  buf     : Word
  /-- VAL, the value operand of WRF (R13). -/
  val     : Word
  /-- RES, the result of RDF and MASK (R14). -/
  res     : Word
  /-- LON, two's complement degrees (R15). -/
  lon     : Word
  /-- LONMIN (R16). -/
  lonmin  : Word
  /-- LONSEC (R16). -/
  lonsec  : Word
  /-- LONMS (R16). -/
  lonms   : Word
  /-- LAT, two's complement degrees (R15). -/
  lat     : Word
  /-- LATMIN (R16). -/
  latmin  : Word
  /-- LATSEC (R16). -/
  latsec  : Word
  /-- LATMS (R16). -/
  latms   : Word
  /-- The four stored bits of STATUS: FAULT is bit 0, CAUSE bits 3:1; bits 63:4 are hardwired 0 and not stored
  (R10, R17). -/
  status  : BitVec 4
  /-- Model's own: what the latest action gave back (the `Response` of R20). -/
  reply   : Reply
  /-- Model's own: the actions the host has yet to perform, first one first (R20). -/
  pending : List Action
  /-- Model's own: how many times Reset has drawn the data registers (R27). -/
  draws   : Nat
deriving DecidableEq, Repr

/-- The launch state of R121 for given RESET_DATA: STATUS 0 and the eleven values. -/
def State.launch (d : ResetData) : State :=
  { buf := d.buf, val := d.val, res := d.res, lon := d.lon, lonmin := d.lonmin, lonsec := d.lonsec, lonms := d.lonms,
    lat := d.lat, latmin := d.latmin, latsec := d.latsec, latms := d.latms, status := 0, reply := .silent,
    pending := [], draws := 0 }

/-- The machine right after reset: STATUS 0 (R27); the data registers, which the spec leaves unspecified, at 0
(DESIGN CHOICE, unsafe: log entry 1); nothing pending. -/
def State.reset : State := State.launch ResetData.zero

end Sys2Proof.Machine
end

