-- ==== Sys2Proof/Machine/Flags.lean ====
section
/-! DEFINITION. The STATUS register and the codes: the unit's only flag is FAULT (R17), and no command sets or clears
a condition code (R26). -/

namespace Sys2Proof.Machine

open Sys2Proof

/-- STATUS.FAULT, bit 0 (R17). -/
def State.faulted (s : State) : Bool := s.status.getLsbD 0

/-- STATUS.CAUSE, bits 3:1 (R17). -/
def State.cause (s : State) : BitVec 3 := s.status.extractLsb' 1 3

/-- STATUS from its two fields (R17). -/
def packStatus (fault : Bool) (cause : BitVec 3) : BitVec 4 := cause ++ BitVec.ofBool fault

/-- STATUS as it is read: 64 bits, bits 63:4 zero (R17). -/
def State.statusWord (s : State) : Word := s.status.setWidth 64

/-- The code of a fault, which CAUSE records (R100). -/
def Fault.code : Fault → BitVec 3
  | .outOfBounds => 1
  | .illegalCommand => 2
  | .illegalAccess => 3

/-- The response that reports a fault: `The code is both the response of the action and the value of STATUS.CAUSE`
(R100). -/
def Fault.response : Fault → Response
  | .outOfBounds => .outOfBounds
  | .illegalCommand => .illegalCommand
  | .illegalAccess => .illegalAccess

/-- The number of a response (R51). -/
def Response.code : Response → Nat
  | .ok => 0
  | .outOfBounds => 1
  | .illegalCommand => 2
  | .illegalAccess => 3
  | .refused => 4

/-- The response a reply carries; Reset carries none (R51). -/
def Reply.response : Reply → Option Response
  | .silent => none
  | .answer r => some r
  | .value _ => some .ok

end Sys2Proof.Machine
end

