-- ==== Sys2Proof/Machine/Operands.lean ====
section
/-! DEFINITION. Operand forms: the bounds test of a field, how a register's pattern is read as an integer and an
integer written to a register (R7), and the host's register numbers (R19). -/

namespace Sys2Proof.Machine

open Sys2Proof

/-- A field is in bounds: the sum is an integer and does not wrap (R36). -/
abbrev InBounds (start size : Nat) : Prop := start + size ≤ Config.bufBits

/-- `zext_64` (R7), of a number below `2^64`. -/
def zext64 (v : Nat) : Word := BitVec.ofNat 64 v

/-- `sext_64` (R7): the two's complement pattern of an integer. -/
def sext64 (z : Int) : Word := BitVec.ofInt 64 z

/-- `signed_64` (R7): the integer a two's complement pattern stands for. -/
def signed64 (p : Word) : Int := p.toInt

/-- The first step of `write_field`: `value mod 2^64` (R66). -/
def widen (value : Int) : Word := BitVec.ofInt 64 value

/-- The register of a number; 12..15 are undefined (R19). -/
def regOfNumber (n : Fin 16) : Option Reg :=
  match n.val with
  | 0 => some .buf
  | 1 => some .val
  | 2 => some .res
  | 3 => some .lon
  | 4 => some .lonmin
  | 5 => some .lonsec
  | 6 => some .lonms
  | 7 => some .lat
  | 8 => some .latmin
  | 9 => some .latsec
  | 10 => some .latms
  | 11 => some .status
  | _ => none

end Sys2Proof.Machine
end

