-- ==== Sys2Proof/Machine/Ops.lean ====
section
/-! DEFINITION. The named operations over the buffer and the registers: the bits and bytes of the buffer, `read_field`
and `write_field` (R62, R64), register access (R19), responses, fault entry (R105) and Reset (R120). -/

namespace Sys2Proof.Machine

open Sys2Proof

/-! ## The buffer as bits and bytes -/

/-- `BufBit(k)` as a number (R5, R6). -/
def bufBit (B : Word) (k : Nat) : Nat := (B.getLsbD k).toNat

/-- Byte `BUF[j]` (R5, R12). -/
def bufByte (B : Word) (j : Nat) : Byte := B.extractLsb' (8 * j) 8

/-- The buffer with bit index `k` set to `b`. -/
def setBufBit (B : Word) (k : Nat) (b : Bool) : Word :=
  if b then B ||| BitVec.twoPow 64 k else B &&& ~~~BitVec.twoPow 64 k

/-- The buffer as memory cells, byte 0 first: a view computed from the one register that stores it (R12; log entry 5). -/
def bufCells (B : Word) : List Host.Cell := (List.range Config.bufLen).map fun j => (j, bufByte B j)

/-- The 64-bit view of a list of cells: the sum of `BUF[j] * 2^(8*j)` (R6). -/
def wordOfCells : List Host.Cell → Word
  | [] => 0
  | (j, b) :: rest => BitVec.ofNat 64 (b.toNat * 2 ^ (8 * j)) + wordOfCells rest

/-- The canonical form of the byte view: exactly the addresses 0 to 7, rising, each once. -/
def Memory.wf (m : List Host.Cell) : Bool := m.map Prod.fst == List.range Config.bufLen

/-! ## Fields -/

/-- The value of the `size` bits from `start` on, the bit at `start` the most significant (R32, R62). Meant for fields
in bounds. -/
def fieldValue (B : Word) (start : Nat) : Nat → Nat
  | 0 => 0
  | n + 1 => 2 * fieldValue B start n + bufBit B (start + n)

/-- The buffer with the low `size` bits of `v` written from `start` on, most significant bit first (R32, R64): bit `0`
of `v` goes to `start + size - 1`, and the bits above it to the indices below. Meant for fields in bounds. -/
def depositField (B : Word) (start : Nat) : Nat → Word → Word
  | 0, _ => B
  | n + 1, v => setBufBit (depositField B start n (v >>> 1)) (start + n) (v.getLsbD 0)

/-- `mask(size) = 2^size - 1`, for every size (R61). -/
def maskOf (size : Nat) : Nat := 2 ^ size - 1

/-- `read_field` (R62): no value when the field is not in bounds (R69). -/
def readField (B : Word) (start size : Nat) : Option Nat :=
  if InBounds start size then some (fieldValue B start size) else none

/-- `write_field` (R64) of any integer, first widened to 64 bits (R66): no buffer when the field is not in bounds
(R69). -/
def writeField (B : Word) (start size : Nat) (value : Int) : Option Word :=
  if InBounds start size then some (depositField B start size (widen value)) else none

/-! ## The unit -/

/-- `respond <code>` (R8, R51). -/
def respond (r : Response) (s : State) : State := { s with reply := .answer r }

/-- `raise F`, the fault entry of R105: STATUS records the fault, the response is its code, no other register
changes. -/
def raise (f : Fault) (s : State) : State :=
  { s with status := packStatus true f.code, reply := .answer f.response }

/-- `RES <- v`. -/
def setRes (v : Word) (s : State) : State := { s with res := v }

/-- `BUF <- v`. -/
def setBuf (v : Word) (s : State) : State := { s with buf := v }

/-- The value a read of a register gives (R19); STATUS reads with zeros above bit 3 (R17). -/
def readReg (r : Reg) (s : State) : Word :=
  match r with
  | .buf => s.buf
  | .val => s.val
  | .res => s.res
  | .lon => s.lon
  | .lonmin => s.lonmin
  | .lonsec => s.lonsec
  | .lonms => s.lonms
  | .lat => s.lat
  | .latmin => s.latmin
  | .latsec => s.latsec
  | .latms => s.latms
  | .status => s.statusWord

/-- A host write of a register (R19, R21); `none` for RES and STATUS, which the host may not write. -/
def writeReg (r : Reg) (v : Word) (s : State) : Option State :=
  match r with
  | .buf => some { s with buf := v }
  | .val => some { s with val := v }
  | .res => none
  | .lon => some { s with lon := v }
  | .lonmin => some { s with lonmin := v }
  | .lonsec => some { s with lonsec := v }
  | .lonms => some { s with lonms := v }
  | .lat => some { s with lat := v }
  | .latmin => some { s with latmin := v }
  | .latsec => some { s with latsec := v }
  | .latms => some { s with latms := v }
  | .status => none

/-- Reset (R120): STATUS becomes 0, every data register is drawn afresh, no response. The way out of the faulted
state, and the only one (R109). -/
def resetUnit (s : State) : State :=
  let d := Config.resetData s.draws
  { buf := d.buf, val := d.val, res := d.res, lon := d.lon, lonmin := d.lonmin, lonsec := d.lonsec, lonms := d.lonms,
    lat := d.lat, latmin := d.latmin, latsec := d.latsec, latms := d.latms, status := 0, reply := .silent,
    pending := s.pending, draws := s.draws + 1 }

end Sys2Proof.Machine
end

