-- ==== Sys2Proof/Machine/Bitfield.lean ====
section
/-! DEFINITION. The bit-field commands MASK, RDF and WRF (40_bitfield.md, part 2). Issue has refused a faulted unit and
raised IllegalCommand for a bad word before any of them runs (R50). -/

namespace Sys2Proof.Machine

open Sys2Proof

/-- MASK size (R70). -/
def execMask (size : Nat) (s : State) : Host.Outcome State Fault Refusal :=
  if size ≤ 64 then .next (respond .ok (setRes (zext64 (maskOf size)) s))
  else .next (raise .outOfBounds s)

/-- RDF begin, size (R72). -/
def execRdf (start size : Nat) (s : State) : Host.Outcome State Fault Refusal :=
  match readField s.buf start size with
  | some v => .next (respond .ok (setRes (zext64 v) s))
  | none => .next (raise .outOfBounds s)

/-- WRF begin, size (R74). The value is VAL as an unsigned number, whose widening is the identity (R66). -/
def execWrf (start size : Nat) (s : State) : Host.Outcome State Fault Refusal :=
  match writeField s.buf start size s.val.toNat with
  | some B => .next (respond .ok (setBuf B s))
  | none => .next (raise .outOfBounds s)

end Sys2Proof.Machine
end

