-- ==== Sys2Proof/Machine/Geopoint.lean ====
section
/-! DEFINITION. The geo-point codec: the two value types, the record layout, `encode` and `decode` of the function
layer, and the commands ENC and DEC (41_geopoint.md). -/

namespace Sys2Proof.Machine

open Sys2Proof

/-! ## Values -/

/-- TimeOfFix (R80): three plain integers without meaning to the unit. -/
structure TimeOfFix where
  minute      : Int
  second      : Int
  millisecond : Int
deriving DecidableEq, Repr

/-- GeoPoint (R81): structural equality of eight integers. -/
structure GeoPoint where
  latitude      : Int
  latitudeTime  : TimeOfFix
  longitude     : Int
  longitudeTime : TimeOfFix
deriving DecidableEq, Repr

/-! ## The layout -/

/-- The ten fields of the record (R83). -/
inductive LayoutField where
  | lonSign | lonMagnitude | lonMinute | lonSecond | lonMillisecond
  | latSign | latMagnitude | latMinute | latSecond | latMillisecond
deriving DecidableEq, Repr

/-- The ten fields in the order of the layout table (R83). -/
def layout : List LayoutField :=
  [.lonSign, .lonMagnitude, .lonMinute, .lonSecond, .lonMillisecond,
   .latSign, .latMagnitude, .latMinute, .latSecond, .latMillisecond]

/-- The offset column of the layout table (R83). -/
def LayoutField.offset : LayoutField → Nat
  | .lonSign => 0
  | .lonMagnitude => 1
  | .lonMinute => 9
  | .lonSecond => 15
  | .lonMillisecond => 21
  | .latSign => 33
  | .latMagnitude => 34
  | .latMinute => 41
  | .latSecond => 47
  | .latMillisecond => 53

/-- The width column of the layout table (R83); the two millisecond widths differ on purpose (R97). -/
def LayoutField.width : LayoutField → Nat
  | .lonSign => 1
  | .lonMagnitude => 8
  | .lonMinute => 6
  | .lonSecond => 6
  | .lonMillisecond => 12
  | .latSign => 1
  | .latMagnitude => 7
  | .latMinute => 6
  | .latSecond => 6
  | .latMillisecond => 11

/-- Bit index `k` of the record belongs to the field (R83's column of bit indices). -/
def LayoutField.contains (f : LayoutField) (k : Nat) : Bool := f.offset ≤ k && k < f.offset + f.width

/-- The field that bit index `k` belongs to (R82, R84): every index below 64 has one, and only one. -/
def fieldAt (k : Nat) : Option LayoutField := layout.find? fun f => f.contains k

/-- A run of R84's byte map: bits `low` to `low + length - 1` of a byte hold the `length` bits of the field's value
whose least significant one is bit `valueLow` of it. -/
structure ByteRun where
  field    : LayoutField
  low      : Nat
  length   : Nat
  valueLow : Nat
deriving DecidableEq, Repr

/-- What each byte of the record holds, byte by byte as R84 lists it. -/
def byteRuns : Nat → List ByteRun
  | 0 => [⟨.lonSign, 0, 1, 0⟩, ⟨.lonMagnitude, 1, 7, 1⟩]
  | 1 => [⟨.lonMagnitude, 0, 1, 0⟩, ⟨.lonMinute, 1, 6, 0⟩, ⟨.lonSecond, 7, 1, 5⟩]
  | 2 => [⟨.lonSecond, 0, 5, 0⟩, ⟨.lonMillisecond, 5, 3, 9⟩]
  | 3 => [⟨.lonMillisecond, 0, 8, 1⟩]
  | 4 => [⟨.lonMillisecond, 0, 1, 0⟩, ⟨.latSign, 1, 1, 0⟩, ⟨.latMagnitude, 2, 6, 1⟩]
  | 5 => [⟨.latMagnitude, 0, 1, 0⟩, ⟨.latMinute, 1, 6, 0⟩, ⟨.latSecond, 7, 1, 5⟩]
  | 6 => [⟨.latSecond, 0, 5, 0⟩, ⟨.latMillisecond, 5, 3, 8⟩]
  | 7 => [⟨.latMillisecond, 0, 8, 0⟩]
  | _ => []

/-- Bit `m` of a byte lies in the run. -/
def ByteRun.contains (r : ByteRun) (m : Nat) : Bool := r.low ≤ m && m < r.low + r.length

/-- The bit a run puts at bit `m` of its byte: within a run the lower index is the more significant (R84). -/
def ByteRun.bit (values : LayoutField → Nat) (r : ByteRun) (m : Nat) : Bool :=
  (values r.field).testBit (r.valueLow + (r.low + r.length - 1 - m))

/-- Bit `m` of byte `j` of the record whose fields hold `values` (R84). -/
def recordByteBit (values : LayoutField → Nat) (j m : Nat) : Bool :=
  (byteRuns j).any fun r => r.contains m && r.bit values m

/-- The sign bit of a coordinate: 0 for negative, 1 for zero and above (R86). -/
def signBit (c : Int) : Int := if c < 0 then 0 else 1

/-- What `encode` writes to a field, before truncation (R85). -/
def encodeInput (p : GeoPoint) : LayoutField → Int
  | .lonSign => signBit p.longitude
  | .lonMagnitude => p.longitude.natAbs
  | .lonMinute => p.longitudeTime.minute
  | .lonSecond => p.longitudeTime.second
  | .lonMillisecond => p.longitudeTime.millisecond
  | .latSign => signBit p.latitude
  | .latMagnitude => p.latitude.natAbs
  | .latMinute => p.latitudeTime.minute
  | .latSecond => p.latitudeTime.second
  | .latMillisecond => p.latitudeTime.millisecond

/-- One `write_field` of `encode`: every layout field is in bounds (R84). -/
def depositRow (p : GeoPoint) (B : Word) (f : LayoutField) : Word :=
  depositField B f.offset f.width (widen (encodeInput p f))

/-- `encode(point)` (R85): the ten writes on an all-zero buffer. -/
def encodePoint (p : GeoPoint) : Word := layout.foldl (depositRow p) 0

/-- The value of a layout field of a record. -/
def recordField (B : Word) (f : LayoutField) : Nat := fieldValue B f.offset f.width

/-- A coordinate from its sign bit and magnitude: `sign_bit==0 ? -magnitude : magnitude` (R88). -/
def signedOf (sign magnitude : Nat) : Int := if sign = 0 then -(magnitude : Int) else magnitude

/-- `decode(record)` (R88): total, without validation. -/
def decodeRecord (B : Word) : GeoPoint :=
  { longitude := signedOf (recordField B .lonSign) (recordField B .lonMagnitude)
    longitudeTime :=
      { minute := recordField B .lonMinute
        second := recordField B .lonSecond
        millisecond := recordField B .lonMillisecond }
    latitude := signedOf (recordField B .latSign) (recordField B .latMagnitude)
    latitudeTime :=
      { minute := recordField B .latMinute
        second := recordField B .latSecond
        millisecond := recordField B .latMillisecond } }

/-! ## The point registers -/

/-- The GeoPoint the point registers hold: coordinates in two's complement (R15, R94), time registers as unsigned
patterns, which ENC cannot tell from signed ones (R16). -/
def pointOf (s : State) : GeoPoint :=
  { longitude := signed64 s.lon
    longitudeTime := { minute := s.lonmin.toNat, second := s.lonsec.toNat, millisecond := s.lonms.toNat }
    latitude := signed64 s.lat
    latitudeTime := { minute := s.latmin.toNat, second := s.latsec.toNat, millisecond := s.latms.toNat } }

/-- All eight point registers written at once (R95). -/
def setPoint (p : GeoPoint) (s : State) : State :=
  { s with
    lon := sext64 p.longitude
    lonmin := sext64 p.longitudeTime.minute
    lonsec := sext64 p.longitudeTime.second
    lonms := sext64 p.longitudeTime.millisecond
    lat := sext64 p.latitude
    latmin := sext64 p.latitudeTime.minute
    latsec := sext64 p.latitudeTime.second
    latms := sext64 p.latitudeTime.millisecond }

/-! ## The commands -/

/-- ENC (R93): reads the point registers, not BUF; replaces all of BUF; cannot fault. -/
def execEnc (s : State) : Host.Outcome State Fault Refusal :=
  .next (respond .ok (setBuf (encodePoint (pointOf s)) s))

/-- DEC (R95): reads BUF; replaces all eight point registers; cannot fault. -/
def execDec (s : State) : Host.Outcome State Fault Refusal :=
  .next (respond .ok (setPoint (decodeRecord s.buf) s))

end Sys2Proof.Machine
end

