-- ==== Sys2Proof/Machine/Dispatch.lean ====
section
/-! DEFINITION. The meaning of every command: one arm per constructor, one direct call of its meaning. -/

namespace Sys2Proof.Machine

open Sys2Proof

/-- Perform the matched command's rule (R50). -/
def exec (i : Instr) (s : State) : Host.Outcome State Fault Refusal :=
  match i with
  | .mask size => Sys2Proof.Machine.execMask size s
  | .rdf start size => Sys2Proof.Machine.execRdf start size s
  | .wrf start size => Sys2Proof.Machine.execWrf start size s
  | .enc => Sys2Proof.Machine.execEnc s
  | .dec => Sys2Proof.Machine.execDec s

end Sys2Proof.Machine
end

