-- ==== Sys2Proof/Machine/HostActions.lean ====
section
/-! DEFINITION. The four host actions (R20): Reset, HostWrite, HostRead and Issue, and where a step takes its action
from. -/

namespace Sys2Proof.Machine

open Sys2Proof

/-- HostWrite(n, v) (R21). -/
def hostWrite (n : Fin 16) (v : Word) (s : State) : State :=
  if s.faulted then respond .refused s
  else match (regOfNumber n).bind fun r => writeReg r v s with
    | some t => respond .ok t
    | none => raise .illegalAccess s

/-- HostRead(n) (R23): a defined register is read even when the unit is faulted. -/
def hostRead (n : Fin 16) (s : State) : State :=
  match regOfNumber n with
  | some r => { s with reply := .value (readReg r s) }
  | none => if s.faulted then respond .refused s else raise .illegalAccess s

/-- Issue(w) (R50); the order of the tests is the fault priority of R106. -/
def issue (w : CommandWord) (s : State) : Host.Outcome State Fault Refusal :=
  if s.faulted then .next (respond .refused s)
  else match decode w with
    | .ok i => exec i s
    | .error _ => .next (raise .illegalCommand s)

/-- One host action (R20). -/
def perform (a : Action) (s : State) : Host.Outcome State Fault Refusal :=
  match a with
  | .reset => .next (resetUnit s)
  | .hostWrite n v => .next (hostWrite n v s)
  | .hostRead n => .next (hostRead n s)
  | .issue w => issue w s

/-- The host's next action and the state without it; `none` when the host has none. -/
def nextAction (s : State) : Option (Action × State) :=
  match s.pending with
  | [] => none
  | a :: rest => some (a, { s with pending := rest })

/-- Between host actions the unit holds its registers (R116) and never acts on its own (R20): a step without an action
changes nothing (DESIGN CHOICE, safe: log entry 3). -/
def idle (s : State) : State := s

end Sys2Proof.Machine
end

