-- ==== Sys2Proof/Machine/Step.lean ====
section
/-! DEFINITION. One step: the host's next action, performed atomically (R20). -/

namespace Sys2Proof.Machine

open Sys2Proof

/-- One step of the model is one host action (R20). -/
def step (s : State) : Host.Outcome State Fault Refusal :=
  match nextAction s with
  | some (a, t) => perform a t
  | none => .next (idle s)

/-- `s` with the host about to issue the word of the low `nbits` bits of `w`, before anything else it has pending. On a
faulted unit that word is refused, as R50 says. -/
def State.withFetchWord (s : State) (nbits w : Nat) : State :=
  { s with pending := .issue (BitVec.ofNat 32 (w % 2 ^ nbits)) :: s.pending }

end Sys2Proof.Machine
end

