-- ==== Sys2Proof/Machine/Assembler.lean ====
section
/-! DEFINITION. The assembler syntax of R53 and the host-script lines of R54, on lists of characters. They are notation
for commands and host actions: no state of the unit is read or written here, and there are no pseudo-instructions
(R55). -/

namespace Sys2Proof.Machine

open Sys2Proof

/-- Why a line is not a command or a host action. -/
inductive AsmError where
  /-- The line's shape is none of the tables of R53 and R54. -/
  | badLine
  /-- An operand is not a decimal or `0x` hexadecimal number. -/
  | badNumber
  /-- A command operand outside 0..255, or a register value that is no 64-bit pattern and no 64-bit signed integer. -/
  | outOfRange
  /-- No register of that name. -/
  | unknownRegister
deriving DecidableEq, Repr

/-- The value of a digit in base 16. -/
def digitValue (c : Char) : Option Nat :=
  if '0'.toNat ≤ c.toNat ∧ c.toNat ≤ '9'.toNat then some (c.toNat - '0'.toNat)
  else if 'a'.toNat ≤ c.toNat ∧ c.toNat ≤ 'f'.toNat then some (c.toNat - 'a'.toNat + 10)
  else if 'A'.toNat ≤ c.toNat ∧ c.toNat ≤ 'F'.toNat then some (c.toNat - 'A'.toNat + 10)
  else none

/-- Digits in a base, most significant first, onto a value already read. -/
def digitsOnto (base acc : Nat) : List Char → Option Nat
  | [] => some acc
  | c :: cs =>
    match digitValue c with
    | some d => if d < base then digitsOnto base (acc * base + d) cs else none
    | none => none

/-- A decimal or `0x` hexadecimal number (R53). -/
def parseNumber : List Char → Option Nat
  | [] => none
  | '0' :: 'x' :: c :: cs => digitsOnto 16 0 (c :: cs)
  | c :: cs => digitsOnto 10 0 (c :: cs)

/-- A number of a SET line, which may be signed (R54). -/
def parseInteger : List Char → Option Int
  | '-' :: cs => (parseNumber cs).map fun n => -(n : Int)
  | cs => (parseNumber cs).map Int.ofNat

/-- A word read so far, put before the words after it. -/
def pushToken (word : List Char) (rest : List (List Char)) : List (List Char) :=
  if word = [] then rest else word.reverse :: rest

/-- The words of a line up to its comment: blanks part words, a comma is a word, `;` starts a comment (R53). `word` is
the word being read, last character first. -/
def tokens (word : List Char) : List Char → List (List Char)
  | [] => pushToken word []
  | c :: cs =>
    if c = ';' then pushToken word []
    else if c = ' ' ∨ c = '\t' then pushToken word (tokens [] cs)
    else if c = ',' then pushToken word ([','] :: tokens [] cs)
    else tokens (c :: word) cs

/-- The assembler's rule for operands: a number in 0..255 (R53). -/
def parseOperand (cs : List Char) : Except AsmError Nat :=
  match parseNumber cs with
  | some n => if n < Config.operandBound then .ok n else .error .outOfRange
  | none => .error .badNumber

/-- A command with two operands in the order `begin, size` (R53). -/
def twoOperands (f : Nat → Nat → Instr) (start size : List Char) : Except AsmError Instr :=
  match parseOperand start, parseOperand size with
  | .ok b, .ok n => .ok (f b n)
  | .error e, _ => .error e
  | _, .error e => .error e

/-- The command of a line's words (R53). A field that is out of bounds is not rejected. -/
def assembleTokens : List (List Char) → Except AsmError Instr
  | [['M', 'A', 'S', 'K'], size] =>
    match parseOperand size with
    | .ok n => .ok (.mask n)
    | .error e => .error e
  | [['R', 'D', 'F'], start, [','], size] => twoOperands .rdf start size
  | [['W', 'R', 'F'], start, [','], size] => twoOperands .wrf start size
  | [['E', 'N', 'C']] => .ok .enc
  | [['D', 'E', 'C']] => .ok .dec
  | _ => .error .badLine

/-- One line of assembler: `none` for a line with no command on it (R53). -/
def assembleLine (line : List Char) : Except AsmError (Option Instr) :=
  match tokens [] line with
  | [] => .ok none
  | ts =>
    match assembleTokens ts with
    | .ok i => .ok (some i)
    | .error e => .error e

/-- The number of a register's name (R19). -/
def registerNumber (name : List Char) : Option (Fin 16) :=
  match name with
  | ['B', 'U', 'F'] => some 0
  | ['V', 'A', 'L'] => some 1
  | ['R', 'E', 'S'] => some 2
  | ['L', 'O', 'N'] => some 3
  | ['L', 'O', 'N', 'M', 'I', 'N'] => some 4
  | ['L', 'O', 'N', 'S', 'E', 'C'] => some 5
  | ['L', 'O', 'N', 'M', 'S'] => some 6
  | ['L', 'A', 'T'] => some 7
  | ['L', 'A', 'T', 'M', 'I', 'N'] => some 8
  | ['L', 'A', 'T', 'S', 'E', 'C'] => some 9
  | ['L', 'A', 'T', 'M', 'S'] => some 10
  | ['S', 'T', 'A', 'T', 'U', 'S'] => some 11
  | _ => none

/-- The 64-bit value of a SET line: signed values stand for `sext_64` of the number (R54). -/
def setValue (cs : List Char) : Except AsmError Word :=
  match parseInteger cs with
  | some z => if -(2 ^ 63) ≤ z ∧ z < 2 ^ 64 then .ok (sext64 z) else .error .outOfRange
  | none => .error .badNumber

/-- The host action of a script line's words (R54): RESET, SET, GET, or the Issue of a command line's word. -/
def scriptTokens : List (List Char) → Except AsmError Action
  | [['R', 'E', 'S', 'E', 'T']] => .ok .reset
  | [['S', 'E', 'T'], name, [','], value] =>
    match registerNumber name, setValue value with
    | some n, .ok v => .ok (.hostWrite n v)
    | none, _ => .error .unknownRegister
    | _, .error e => .error e
  | [['G', 'E', 'T'], name] =>
    match registerNumber name with
    | some n => .ok (.hostRead n)
    | none => .error .unknownRegister
  | ts =>
    match assembleTokens ts with
    | .ok i => .ok (.issue (encode i))
    | .error e => .error e

/-- One line of a host script: `none` for a line with no action on it (R54). -/
def scriptLine (line : List Char) : Except AsmError (Option Action) :=
  match tokens [] line with
  | [] => .ok none
  | ts =>
    match scriptTokens ts with
    | .ok a => .ok (some a)
    | .error e => .error e

end Sys2Proof.Machine
end

