-- ==== Sys2Proof/Safety.lean ====
section
/-! DEFINITION. What counts as a good state and a clean run, in the terms the statements use. -/

namespace Sys2Proof.Safety

open Sys2Proof Sys2Proof.Machine

/-- The STATUS invariant of R18: FAULT is 1 exactly when CAUSE is not 0, and CAUSE is in 0..3. -/
abbrev StatusInv (s : State) : Prop :=
  (s.faulted = true ↔ s.cause ≠ 0) ∧ s.cause ≤ 3

/-- The eleven data registers of two states agree (R10). -/
abbrev SameData (s t : State) : Prop :=
  t.buf = s.buf ∧ t.val = s.val ∧ t.res = s.res ∧ t.lon = s.lon ∧ t.lonmin = s.lonmin ∧ t.lonsec = s.lonsec ∧
    t.lonms = s.lonms ∧ t.lat = s.lat ∧ t.latmin = s.latmin ∧ t.latsec = s.latsec ∧ t.latms = s.latms

/-- All twelve registers of two states agree (R10). -/
abbrev SameUnit (s t : State) : Prop := SameData s t ∧ t.status = s.status

/-- The eight point registers of two states agree. -/
abbrev SamePoint (s t : State) : Prop :=
  t.lon = s.lon ∧ t.lonmin = s.lonmin ∧ t.lonsec = s.lonsec ∧ t.lonms = s.lonms ∧ t.lat = s.lat ∧
    t.latmin = s.latmin ∧ t.latsec = s.latsec ∧ t.latms = s.latms

/-- The host's actions of a program performed in order, with the reply to each (R20): the state after the last, and
the replies. `none` would mean that an action had no next state. -/
def runActions : List Action → State → Option (State × List Reply)
  | [], s => some (s, [])
  | a :: rest, s =>
    match perform a s with
    | .next t => (runActions rest t).map fun (u, replies) => (u, t.reply :: replies)
    | .fault _ => none
    | .refused _ => none

/-- `no response other than OK was returned` (R108): every response is OK. Reset returns no response at all (R51, R120),
so its silent reply is none other than OK. -/
abbrev AllOk (replies : List Reply) : Prop := ∀ r ∈ replies, r.response = none ∨ r.response = some Response.ok

/-- The formula of R62: the sum over `j` of `B[begin + j] * 2^(size - 1 - j)`. -/
def fieldSum (B : Word) (start size : Nat) : Nat :=
  ∑ j ∈ Finset.range size, (B.getLsbD (start + j)).toNat * 2 ^ (size - 1 - j)

/-- The formula of R7 for `rev(n, v)`: the sum over `j` of `v[j] * 2^(n - 1 - j)`. -/
def revSum (n v : Nat) : Nat := ∑ j ∈ Finset.range n, v / 2 ^ j % 2 * 2 ^ (n - 1 - j)

/-- `value mod 2^n` as an unsigned number, for every integer (R7). -/
def lowBits (n : Nat) (value : Int) : Nat := (value % 2 ^ n).toNat

/-- The rows of `encode`'s writes as R85 lists them: offset, width and value. -/
def encodeRows (p : GeoPoint) : List (Nat × Nat × Int) :=
  [(0, 1, if p.longitude < 0 then 0 else 1), (1, 8, |p.longitude|), (9, 6, p.longitudeTime.minute),
   (15, 6, p.longitudeTime.second), (21, 12, p.longitudeTime.millisecond),
   (33, 1, if p.latitude < 0 then 0 else 1), (34, 7, |p.latitude|), (41, 6, p.latitudeTime.minute),
   (47, 6, p.latitudeTime.second), (53, 11, p.latitudeTime.millisecond)]

/-- The bounds of the round-trip guarantee (R90). -/
abbrev InRange (p : GeoPoint) : Prop :=
  (-255 ≤ p.longitude ∧ p.longitude ≤ 255) ∧ (-127 ≤ p.latitude ∧ p.latitude ≤ 127) ∧
  (0 ≤ p.longitudeTime.minute ∧ p.longitudeTime.minute < 64) ∧
  (0 ≤ p.longitudeTime.second ∧ p.longitudeTime.second < 64) ∧
  (0 ≤ p.longitudeTime.millisecond ∧ p.longitudeTime.millisecond < 4096) ∧
  (0 ≤ p.latitudeTime.minute ∧ p.latitudeTime.minute < 64) ∧
  (0 ≤ p.latitudeTime.second ∧ p.latitudeTime.second < 64) ∧
  (0 ≤ p.latitudeTime.millisecond ∧ p.latitudeTime.millisecond < 2048)

/-- A coordinate cut to an `n`-bit magnitude: `sign * (abs(c) mod 2^n)` (R90). -/
def truncateCoordinate (n : Nat) (c : Int) : Int := if c < 0 then -(|c| % 2 ^ n) else |c| % 2 ^ n

/-- A point with each component cut to its field's width (R87, R90). -/
def truncatePoint (p : GeoPoint) : GeoPoint :=
  { longitude := truncateCoordinate 8 p.longitude
    longitudeTime :=
      { minute := p.longitudeTime.minute % 2 ^ 6
        second := p.longitudeTime.second % 2 ^ 6
        millisecond := p.longitudeTime.millisecond % 2 ^ 12 }
    latitude := truncateCoordinate 7 p.latitude
    latitudeTime :=
      { minute := p.latitudeTime.minute % 2 ^ 6
        second := p.latitudeTime.second % 2 ^ 6
        millisecond := p.latitudeTime.millisecond % 2 ^ 11 } }

/-- The longitude of a record is a negative zero: sign bit 0 and magnitude 0 (R91). -/
abbrev LonNegativeZero (B : Word) : Prop := B &&& 0x1FF = 0

/-- The latitude of a record is a negative zero (R91). -/
abbrev LatNegativeZero (B : Word) : Prop := B &&& 0x1FE00000000 = 0

end Sys2Proof.Safety
end

