-- ==== Sys2Proof/Certificates/Slice0/Obligations.lean ====
section
/-! DEFINITION. The statements about the model, for the provers. Each docstring names the rule of spec/ it formalises.
No statement depends on the values a Reset draws or on the zeros of the launch state. Where a docstring says `spec's
inference`, the spec itself marks the rule `[derived: ...]`, and the statement's basis is derived. -/

open Sys2Proof Sys2Proof.Machine Sys2Proof.Safety

/-! ## Encoding -/

/-- Every well-formed command comes back from its word, with every operand (R46 to R49). -/
def Obligations.DecodeOfEncode : Prop :=
  ∀ i : Instr, i.wellFormed = true → decode (encode i) = .ok i

/-- Every word that decodes is the word of the one well-formed command it decodes to (R46 to R49). -/
def Obligations.EncodeOfDecode : Prop :=
  ∀ (w : CommandWord) (i : Instr), decode w = .ok i → i.wellFormed = true ∧ encode i = w

/-- R49: a word decodes to a row exactly when its mask and match say so, no word matches two rows, the illegal words are
the listed ones and raise IllegalCommand, and operands that are only out of range decode and then raise OutOfBounds.
-/
def Obligations.DecodeMatchesOpcodeTable : Prop :=
  ∀ w : CommandWord,
    (w &&& 0xFFFF00FF = 0x01000000 → decode w = .ok (.mask (w.toNat / 2 ^ 8 % 2 ^ 8))) ∧
    (w &&& 0xFFFF0000 = 0x02000000 → decode w = .ok (.rdf (w.toNat % 2 ^ 8) (w.toNat / 2 ^ 8 % 2 ^ 8))) ∧
    (w &&& 0xFFFF0000 = 0x03000000 → decode w = .ok (.wrf (w.toNat % 2 ^ 8) (w.toNat / 2 ^ 8 % 2 ^ 8))) ∧
    (w &&& 0xFFFFFFFF = 0x04000000 → decode w = .ok .enc) ∧
    (w &&& 0xFFFFFFFF = 0x05000000 → decode w = .ok .dec) ∧
    (w &&& 0xFFFF00FF ≠ 0x01000000 → w &&& 0xFFFF0000 ≠ 0x02000000 → w &&& 0xFFFF0000 ≠ 0x03000000 →
      w &&& 0xFFFFFFFF ≠ 0x04000000 → w &&& 0xFFFFFFFF ≠ 0x05000000 → ∃ e, decode w = .error e) ∧
    ([(0xFFFF00FF, 0x01000000), (0xFFFF0000, 0x02000000), (0xFFFF0000, 0x03000000), (0xFFFFFFFF, 0x04000000),
      (0xFFFFFFFF, 0x05000000)] : List (CommandWord × CommandWord)).Pairwise
        (fun r q => ¬(w &&& r.1 = r.2 ∧ w &&& q.1 = q.2)) ∧
    ((∃ e, decode w = .error e) ↔
      (w.toNat / 2 ^ 24 < 1 ∨ 5 < w.toNat / 2 ^ 24) ∨ w.toNat / 2 ^ 16 % 2 ^ 8 ≠ 0 ∨
      (w.toNat / 2 ^ 24 = 1 ∧ w.toNat % 2 ^ 8 ≠ 0) ∨
      ((w.toNat / 2 ^ 24 = 4 ∨ w.toNat / 2 ^ 24 = 5) ∧ (w.toNat / 2 ^ 8 % 2 ^ 8 ≠ 0 ∨ w.toNat % 2 ^ 8 ≠ 0))) ∧
    (∀ s : State, s.faulted = false →
      ((∃ e, decode w = .error e) →
        issue w s = .next { s with status := 5, reply := .answer .illegalCommand }) ∧
      (∀ b n, decode w = .ok (.rdf b n) ∨ decode w = .ok (.wrf b n) → 64 < b + n →
        issue w s = .next { s with status := 3, reply := .answer .outOfBounds }) ∧
      (∀ n, decode w = .ok (.mask n) → 64 < n →
        issue w s = .next { s with status := 3, reply := .answer .outOfBounds }))

/-- Words written out from the encodings of R47 and the vectors of 95_test_vectors.md decode to what they stand for. -/
def Obligations.SampleWordsDecode : Prop :=
  decode 0x01000C00 = .ok (.mask 12) ∧ decode 0x0200063C = .ok (.rdf 60 6) ∧
  decode 0x0300083C = .ok (.wrf 60 8) ∧ decode 0x04000000 = .ok .enc ∧ decode 0x05000000 = .ok .dec ∧
  decode 0x00000000 = .error (.unknownOpcode 0) ∧ decode 0x02014141 = .error (.reservedNotZero 1) ∧
  decode 0x04000100 = .error .unusedOperandNotZero

/-- Every line the assembler accepts holds a well-formed command (R53). -/
def Obligations.AssembledLinesAreWellFormed : Prop :=
  ∀ (line : List Char) (i : Instr), assembleLine line = .ok (some i) → i.wellFormed = true

/-- Both `must`s of R53 on a command line whose operands are the numbers `n` and `m`: an operand of 256 or more is
rejected as out of range, and operands in 0..255 give the command with those very operands, also when
`begin + size > 64` or MASK's size is above 64. How a line is cut into words is the model's choice (log entry 12). -/
def Obligations.AssemblerChecksOperandsOnly : Prop :=
  ∀ (line x y : List Char) (n m : Nat), parseNumber x = some n → parseNumber y = some m →
    (tokens [] line = [['M', 'A', 'S', 'K'], x] →
      (256 ≤ n → assembleLine line = .error .outOfRange) ∧ (n < 256 → assembleLine line = .ok (some (.mask n)))) ∧
    (tokens [] line = [['R', 'D', 'F'], x, [','], y] →
      (256 ≤ n ∨ 256 ≤ m → assembleLine line = .error .outOfRange) ∧
      (n < 256 → m < 256 → assembleLine line = .ok (some (.rdf n m)))) ∧
    (tokens [] line = [['W', 'R', 'F'], x, [','], y] →
      (256 ≤ n ∨ 256 ≤ m → assembleLine line = .error .outOfRange) ∧
      (n < 256 → m < 256 → assembleLine line = .ok (some (.wrf n m))))

/-- R53's operands, decimal or `0x` hexadecimal: the digits of any number are read as that number, whole and without
wrap-around. -/
def Obligations.NumbersAreReadWhole : Prop :=
  ∀ n : Nat, parseNumber (Nat.toDigits 10 n) = some n ∧ parseNumber ('0' :: 'x' :: Nat.toDigits 16 n) = some n

/-! ## Steps and host actions -/

/-- A step performs the host's next action on the state without it (R20; the list of actions is the model's own, log
entry 3). -/
def Obligations.StepPerformsNextAction : Prop :=
  ∀ (s : State) (a : Action) (rest : List Action), s.pending = a :: rest →
    step s = perform a { s with pending := rest }

/-- When the next action issues a word that decodes to a command, and the unit is not faulted, the step is that
command's meaning on the state without the action (R50). -/
def Obligations.StepRunsDecodedCommand : Prop :=
  ∀ (s : State) (w : CommandWord) (rest : List Action) (i : Instr), s.pending = .issue w :: rest →
    s.faulted = false → decode w = .ok i → step s = exec i { s with pending := rest }

/-- Without a host action nothing changes: the unit holds its registers (R116) and never acts on its own (R20). That a
step without an action is allowed is the model's choice (log entry 3). -/
def Obligations.StepWithoutActionHolds : Prop :=
  ∀ s : State, s.pending = [] → step s = .next s

/-- Every step has a next state: no fault, no refusal (R130, and `No behaviour of this unit is stuck`, 93 part 1). -/
def Obligations.StepAlwaysAnswersNext : Prop :=
  ∀ s : State, ∃ t, step s = .next t

/-- R50: a faulted unit refuses the word, an illegal word raises IllegalCommand, and a matched command's rule is
performed, which raises OutOfBounds or completes with OK; a step does the whole of it. -/
def Obligations.IssueFollowsItsTests : Prop :=
  ∀ (w : CommandWord) (s : State),
    (s.faulted = true → issue w s = .next { s with reply := .answer .refused }) ∧
    (s.faulted = false → (∃ e, decode w = .error e) →
      issue w s = .next { s with status := 5, reply := .answer .illegalCommand }) ∧
    (∀ i, s.faulted = false → decode w = .ok i →
      issue w s = exec i s ∧
      (exec i s = .next { s with status := 3, reply := .answer .outOfBounds } ∨
        ∃ t, exec i s = .next t ∧ t.reply = .answer .ok ∧ t.status = s.status)) ∧
    (∀ rest, s.pending = .issue w :: rest → step s = issue w { s with pending := rest })

/-- R21, for every register number. -/
def Obligations.HostWriteByNumber : Prop :=
  ∀ (s : State) (v : Word),
    (s.faulted = true → ∀ n, perform (.hostWrite n v) s = .next { s with reply := .answer .refused }) ∧
    (s.faulted = false →
      perform (.hostWrite 0 v) s = .next { s with buf := v, reply := .answer .ok } ∧
      perform (.hostWrite 1 v) s = .next { s with val := v, reply := .answer .ok } ∧
      perform (.hostWrite 3 v) s = .next { s with lon := v, reply := .answer .ok } ∧
      perform (.hostWrite 4 v) s = .next { s with lonmin := v, reply := .answer .ok } ∧
      perform (.hostWrite 5 v) s = .next { s with lonsec := v, reply := .answer .ok } ∧
      perform (.hostWrite 6 v) s = .next { s with lonms := v, reply := .answer .ok } ∧
      perform (.hostWrite 7 v) s = .next { s with lat := v, reply := .answer .ok } ∧
      perform (.hostWrite 8 v) s = .next { s with latmin := v, reply := .answer .ok } ∧
      perform (.hostWrite 9 v) s = .next { s with latsec := v, reply := .answer .ok } ∧
      perform (.hostWrite 10 v) s = .next { s with latms := v, reply := .answer .ok } ∧
      ∀ n ∈ ([2, 11, 12, 13, 14, 15] : List (Fin 16)),
        perform (.hostWrite n v) s = .next { s with status := 7, reply := .answer .illegalAccess })

/-- R23, for every register number; a defined register reads also when the unit is faulted, STATUS with zeros above bit
3. -/
def Obligations.HostReadByNumber : Prop :=
  ∀ s : State,
    perform (.hostRead 0) s = .next { s with reply := .value s.buf } ∧
    perform (.hostRead 1) s = .next { s with reply := .value s.val } ∧
    perform (.hostRead 2) s = .next { s with reply := .value s.res } ∧
    perform (.hostRead 3) s = .next { s with reply := .value s.lon } ∧
    perform (.hostRead 4) s = .next { s with reply := .value s.lonmin } ∧
    perform (.hostRead 5) s = .next { s with reply := .value s.lonsec } ∧
    perform (.hostRead 6) s = .next { s with reply := .value s.lonms } ∧
    perform (.hostRead 7) s = .next { s with reply := .value s.lat } ∧
    perform (.hostRead 8) s = .next { s with reply := .value s.latmin } ∧
    perform (.hostRead 9) s = .next { s with reply := .value s.latsec } ∧
    perform (.hostRead 10) s = .next { s with reply := .value s.latms } ∧
    perform (.hostRead 11) s = .next { s with reply := .value (BitVec.ofNat 64 s.status.toNat) } ∧
    ∀ n : Fin 16, 12 ≤ n.val →
      (s.faulted = true → perform (.hostRead n) s = .next { s with reply := .answer .refused }) ∧
      (s.faulted = false →
        perform (.hostRead n) s = .next { s with status := 7, reply := .answer .illegalAccess })

/-- The registers are distinct storage (R25): after an accepted write, a read of that register gives the value and a
read of any other gives what it gave before. -/
def Obligations.WritingOneRegisterChangesNoOther : Prop :=
  ∀ (n : Fin 16) (v : Word) (s t : State), perform (.hostWrite n v) s = .next t → t.reply = .answer .ok →
    (∃ u, perform (.hostRead n) t = .next u ∧ u.reply = .value v) ∧
    ∀ (m : Fin 16) (u u' : State), m ≠ n → perform (.hostRead m) s = .next u → perform (.hostRead m) t = .next u' →
      u'.reply = u.reply

/-- R120, except the values drawn: Reset clears STATUS in any state and returns no response. THE MODEL'S CHOICE, not
R120's (log entry 2): Reset counts one draw, and two Resets with equal counts draw equal data, whatever the registers
held. The drawn values themselves are free. -/
def Obligations.ResetActionRedraws : Prop :=
  (∀ s : State, ∃ t, perform .reset s = .next t ∧ t.status = 0 ∧ t.faulted = false ∧ t.reply.response = none ∧
    t.pending = s.pending ∧ t.draws = s.draws + 1) ∧
  (∀ s s' t t' : State, s.draws = s'.draws → perform .reset s = .next t → perform .reset s' = .next t' →
    SameData t t')

/-- R27 and R121: whatever the eleven values, the launch state has STATUS 0, holds those values, and answers any action
without REFUSED; and State.reset, whose zeros are the model's choice (log entry 1), is one of these states. -/
def Obligations.LaunchStateIsReady : Prop :=
  (∀ d : ResetData,
    (State.launch d).status = 0 ∧ (State.launch d).statusWord = 0 ∧ (State.launch d).buf = d.buf ∧
    (State.launch d).val = d.val ∧ (State.launch d).res = d.res ∧ (State.launch d).lon = d.lon ∧
    (State.launch d).lonmin = d.lonmin ∧ (State.launch d).lonsec = d.lonsec ∧ (State.launch d).lonms = d.lonms ∧
    (State.launch d).lat = d.lat ∧ (State.launch d).latmin = d.latmin ∧ (State.launch d).latsec = d.latsec ∧
    (State.launch d).latms = d.latms ∧
    ∀ (a : Action) (t : State), perform a (State.launch d) = .next t → t.reply ≠ .answer .refused) ∧
  ∃ d, State.reset = State.launch d

/-! ## Faults and STATUS -/

/-- R105: fault entry sets FAULT, records the code in CAUSE, responds with the code and changes nothing else; and a
faulted unit raises nothing. -/
def Obligations.FaultEntryRecordsAndKeeps : Prop :=
  (∀ (f : Fault) (s : State),
    (raise f s).faulted = true ∧ (raise f s).cause = f.code ∧
    ((raise f s).reply.response.map Response.code) = some f.code.toNat ∧
    SameData s (raise f s) ∧ (raise f s).pending = s.pending ∧ (raise f s).draws = s.draws) ∧
  (∀ (a : Action) (s t : State), s.faulted = true → a ≠ .reset → perform a s = .next t →
    t.status = s.status ∧ (t.reply.response = some .ok ∨ t.reply.response = some .refused))

/-- R106: a faulted unit answers REFUSED to everything but a read of a defined register, then IllegalCommand and
IllegalAccess exactly for bad words and bad register accesses, then OutOfBounds only for a word that decoded. -/
def Obligations.FaultPriority : Prop :=
  (∀ (a : Action) (s t : State), a ≠ .reset → perform a s = .next t →
    (s.faulted = true → t.status = s.status ∧
      (t.reply = .answer .refused ∨ ∃ (n : Fin 16) (v : Word), a = .hostRead n ∧ n.val ≤ 11 ∧ t.reply = .value v)) ∧
    (s.faulted = false →
      (t.reply.response = some .illegalCommand ↔ ∃ w e, a = .issue w ∧ decode w = .error e) ∧
      (t.reply.response = some .illegalAccess ↔
        (∃ (n : Fin 16) (v : Word), a = .hostWrite n v ∧ (n = 2 ∨ 11 ≤ n.val)) ∨
        ∃ n : Fin 16, a = .hostRead n ∧ 12 ≤ n.val) ∧
      (t.reply.response = some .outOfBounds → ∃ w i, a = .issue w ∧ decode w = .ok i))) ∧
  (∀ (w : CommandWord) (s : State), s.faulted = false → w.toNat / 2 ^ 24 = 2 → w.toNat / 2 ^ 16 % 2 ^ 8 ≠ 0 →
    perform (.issue w) s = .next { s with status := 5, reply := .answer .illegalCommand })

/-- R51: the five codes, when each is returned and what state change goes with it. -/
def Obligations.ResponseCodes : Prop :=
  (Response.ok.code = 0 ∧ Response.outOfBounds.code = 1 ∧ Response.illegalCommand.code = 2 ∧
    Response.illegalAccess.code = 3 ∧ Response.refused.code = 4) ∧
  (∀ (s t : State), perform .reset s = .next t → t.reply.response = none) ∧
  (∀ (a : Action) (s t : State), a ≠ .reset → perform a s = .next t →
    ∃ r, t.reply.response = some r ∧
      (r.code = 0 → t.status = s.status ∧ ∀ n, a = .hostRead n → ∃ v, t.reply = .value v) ∧
      (1 ≤ r.code → r.code ≤ 3 →
        SameData s t ∧ t.faulted = true ∧ t.cause.toNat = r.code ∧ s.faulted = false) ∧
      (r.code = 4 ↔ s.faulted = true ∧
        ((∃ n v, a = .hostWrite n v) ∨ (∃ w, a = .issue w) ∨ ∃ n : Fin 16, a = .hostRead n ∧ 12 ≤ n.val)) ∧
      (r.code = 4 → SameUnit s t))

/-- R107: an action that does not answer OK leaves every data register as it was, and a refused one STATUS too. -/
def Obligations.NothingPartial : Prop :=
  ∀ (a : Action) (s t : State), a ≠ .reset → perform a s = .next t → t.reply.response ≠ some .ok →
    SameData s t ∧ (t.reply = .answer .refused → t.status = s.status)

/-- R108 and R109: a faulted unit keeps all twelve registers in every step whose action is not Reset; Reset leaves the
faulted state, and nothing else does. -/
def Obligations.FaultedUntilReset : Prop :=
  (∀ s t : State, s.faulted = true → step s = .next t → (∀ rest, s.pending ≠ .reset :: rest) → SameUnit s t) ∧
  (∀ (s t : State) (rest : List Action), s.pending = .reset :: rest → step s = .next t → t.faulted = false)

/-- R18, the spec's inference from R17, R21 and R105: every step keeps that FAULT is 1 exactly when CAUSE is not 0 and
that CAUSE is in 0..3. -/
def Obligations.StepKeepsStatusInv : Prop :=
  ∀ s t : State, StatusInv s → step s = .next t → StatusInv t

/-- R18, the spec's inference, holds in the launch state, whatever RESET_DATA, and after every Reset action. -/
def Obligations.StatusInvAtReset : Prop :=
  (∀ d : ResetData, StatusInv (State.launch d)) ∧ StatusInv State.reset ∧
  ∀ s t : State, perform .reset s = .next t → StatusInv t

/-- R17: only fault entry and Reset change STATUS, and STATUS reads with zeros above bit 3. -/
def Obligations.StatusChangesOnlyByFaultAndReset : Prop :=
  (∀ s t : State, step s = .next t → t.status ≠ s.status →
    (∃ rest, s.pending = .reset :: rest ∧ t.status = 0) ∨
    (s.faulted = false ∧ ∃ f : Fault, t.faulted = true ∧ t.cause = f.code ∧ t.reply = .answer f.response ∧
      SameData s t)) ∧
  (∀ s : State, ∀ k, 4 ≤ k → s.statusWord.getLsbD k = false)

/-- R108, for host programs. From an unfaulted state, and from any state when the program begins with RESET, a program
without a later Reset returned no response other than OK exactly when STATUS.FAULT is 0 at the end. With Resets anywhere
in it, a program that returned no response other than OK still ends with FAULT 0 (the converse then fails: a later
Reset clears a fault that an earlier response reported). -/
def Obligations.AllOkIffNotFaulted : Prop :=
  (∀ (actions : List Action) (s : State), s.faulted = false → (∀ a ∈ actions, a ≠ .reset) →
    ∃ u replies, runActions actions s = some (u, replies) ∧ (AllOk replies ↔ u.faulted = false)) ∧
  (∀ (actions : List Action) (s : State), (∀ a ∈ actions, a ≠ .reset) →
    ∃ u replies, runActions (.reset :: actions) s = some (u, replies) ∧ (AllOk replies ↔ u.faulted = false)) ∧
  (∀ (actions : List Action) (s : State), s.faulted = false →
    ∃ u replies, runActions actions s = some (u, replies) ∧ (AllOk replies → u.faulted = false))

/-! ## Who changes which register -/

/-- The `written by` columns of R19 and R24, for every step: BUF changes only by HostWrite of BUF, WRF, ENC or Reset;
VAL only by its HostWrite or Reset; RES only by MASK, RDF or Reset; a point register only by a HostWrite of a point
register, DEC or Reset. -/
def Obligations.OnlyNamedWritersChangeRegisters : Prop :=
  ∀ (s t : State) (a : Action) (rest : List Action), s.pending = a :: rest → step s = .next t → a ≠ .reset →
    (t.buf ≠ s.buf → (∃ v, a = .hostWrite 0 v) ∨
      ∃ w, a = .issue w ∧ (decode w = .ok .enc ∨ ∃ b n, decode w = .ok (.wrf b n))) ∧
    (t.val ≠ s.val → ∃ v, a = .hostWrite 1 v) ∧
    (t.res ≠ s.res → ∃ w, a = .issue w ∧ ((∃ n, decode w = .ok (.mask n)) ∨ ∃ b n, decode w = .ok (.rdf b n))) ∧
    (¬SamePoint s t → (∃ (n : Fin 16) (v : Word), a = .hostWrite n v ∧ 3 ≤ n.val ∧ n.val ≤ 10) ∨
      ∃ w, a = .issue w ∧ decode w = .ok .dec)

/-- R11 and R24 (R24 is the spec's inference from the commands' rules): what a command answers and writes depends only
on the registers it names as its sources; ENC does not read BUF, DEC does not read the point registers. -/
def Obligations.CommandsReadOnlyTheirSources : Prop :=
  (∀ (n : Nat) (s s' t t' : State), exec (.mask n) s = .next t → exec (.mask n) s' = .next t' →
    t.reply = t'.reply ∧ (t.reply = .answer .ok → t.res = t'.res)) ∧
  (∀ (b n : Nat) (s s' t t' : State), s.buf = s'.buf → exec (.rdf b n) s = .next t → exec (.rdf b n) s' = .next t' →
    t.reply = t'.reply ∧ (t.reply = .answer .ok → t.res = t'.res)) ∧
  (∀ (b n : Nat) (s s' t t' : State), s.buf = s'.buf → s.val = s'.val → exec (.wrf b n) s = .next t →
    exec (.wrf b n) s' = .next t' → t.reply = t'.reply ∧ t.buf = t'.buf) ∧
  (∀ s s' t t' : State, SamePoint s s' → exec .enc s = .next t → exec .enc s' = .next t' →
    t.reply = t'.reply ∧ t.buf = t'.buf) ∧
  (∀ s s' t t' : State, s.buf = s'.buf → exec .dec s = .next t → exec .dec s' = .next t' →
    t.reply = t'.reply ∧ SamePoint t t')

/-! ## The commands -/

/-- R70: MASK's words are exactly those of its encoding, its result up to 64 bits, and OutOfBounds above; nothing else
changes. -/
def Obligations.MaskCommand : Prop :=
  ∀ n : Nat,
    (∀ w : CommandWord, decode w = .ok (.mask n) ↔ n < 256 ∧ w = BitVec.ofNat 32 (0x01000000 + n * 256)) ∧
    ∀ s : State,
      (n ≤ 64 → exec (.mask n) s = .next { s with res := BitVec.ofNat 64 (2 ^ n - 1), reply := .answer .ok }) ∧
      (64 < n → exec (.mask n) s = .next { s with status := 3, reply := .answer .outOfBounds })

/-- R72: RDF's words are exactly those of its encoding, RES is the sum of R62 for a field in bounds, and OutOfBounds
otherwise; nothing else changes. -/
def Obligations.RdfCommand : Prop :=
  ∀ b n : Nat,
    (∀ w : CommandWord, decode w = .ok (.rdf b n) ↔
      b < 256 ∧ n < 256 ∧ w = BitVec.ofNat 32 (0x02000000 + n * 256 + b)) ∧
    ∀ s : State,
      (b + n ≤ 64 → fieldSum s.buf b n < 2 ^ 64 ∧
        exec (.rdf b n) s = .next { s with res := BitVec.ofNat 64 (fieldSum s.buf b n), reply := .answer .ok }) ∧
      (64 < b + n → exec (.rdf b n) s = .next { s with status := 3, reply := .answer .outOfBounds })

/-- R74: WRF's words are exactly those of its encoding; for a field in bounds, the low bits of VAL stand in the field,
most significant first, every other bit and so every byte outside the field reads as before, and no other register
changes; otherwise OutOfBounds and not a bit of BUF changes. -/
def Obligations.WrfCommand : Prop :=
  ∀ b n : Nat,
    (∀ w : CommandWord, decode w = .ok (.wrf b n) ↔
      b < 256 ∧ n < 256 ∧ w = BitVec.ofNat 32 (0x03000000 + n * 256 + b)) ∧
    ∀ s : State,
      (b + n ≤ 64 → ∃ B : Word, exec (.wrf b n) s = .next { s with buf := B, reply := .answer .ok } ∧
        (∀ i, i < n → B.getLsbD (b + n - 1 - i) = s.val.getLsbD i) ∧
        (∀ k, k < b ∨ b + n ≤ k → B.getLsbD k = s.buf.getLsbD k) ∧
        (∀ j, 8 * j + 8 ≤ b ∨ b + n ≤ 8 * j → bufByte B j = bufByte s.buf j)) ∧
      (64 < b + n → exec (.wrf b n) s = .next { s with status := 3, reply := .answer .outOfBounds })

/-- R93: ENC has one word; in every state ENC completes, and each of the 64 bits of BUF is the bit of its layout field
that the rule gives; nothing else changes. -/
def Obligations.EncCommand : Prop :=
  (∀ w : CommandWord, decode w = .ok .enc ↔ w = 0x04000000) ∧
  ∀ s : State, ∃ B : Word, exec .enc s = .next { s with buf := B, reply := .answer .ok } ∧
    B.getLsbD 0 = decide (0 ≤ signed64 s.lon) ∧
    (∀ i, i < 8 → B.getLsbD (8 - i) = (signed64 s.lon).natAbs.testBit i) ∧
    (∀ i, i < 6 → B.getLsbD (14 - i) = s.lonmin.getLsbD i) ∧
    (∀ i, i < 6 → B.getLsbD (20 - i) = s.lonsec.getLsbD i) ∧
    (∀ i, i < 12 → B.getLsbD (32 - i) = s.lonms.getLsbD i) ∧
    B.getLsbD 33 = decide (0 ≤ signed64 s.lat) ∧
    (∀ i, i < 7 → B.getLsbD (40 - i) = (signed64 s.lat).natAbs.testBit i) ∧
    (∀ i, i < 6 → B.getLsbD (46 - i) = s.latmin.getLsbD i) ∧
    (∀ i, i < 6 → B.getLsbD (52 - i) = s.latsec.getLsbD i) ∧
    (∀ i, i < 11 → B.getLsbD (63 - i) = s.latms.getLsbD i)

/-- R95: DEC has one word; in every state DEC completes with the eight point registers read from BUF, coordinates
sign-extended, time fields zero-extended; nothing else changes. -/
def Obligations.DecCommand : Prop :=
  (∀ w : CommandWord, decode w = .ok .dec ↔ w = 0x05000000) ∧
  ∀ s : State, exec .dec s = .next { s with
    lon := BitVec.ofInt 64
      (if fieldSum s.buf 0 1 = 0 then -(fieldSum s.buf 1 8 : Int) else (fieldSum s.buf 1 8 : Int))
    lonmin := BitVec.ofNat 64 (fieldSum s.buf 9 6)
    lonsec := BitVec.ofNat 64 (fieldSum s.buf 15 6)
    lonms := BitVec.ofNat 64 (fieldSum s.buf 21 12)
    lat := BitVec.ofInt 64
      (if fieldSum s.buf 33 1 = 0 then -(fieldSum s.buf 34 7 : Int) else (fieldSum s.buf 34 7 : Int))
    latmin := BitVec.ofNat 64 (fieldSum s.buf 41 6)
    latsec := BitVec.ofNat 64 (fieldSum s.buf 47 6)
    latms := BitVec.ofNat 64 (fieldSum s.buf 53 11)
    reply := .answer .ok }

/-- R76, the spec's inference from R68, R72 and R74: an RDF after a WRF of the same field gives the low bits of VAL, and
writing back what an RDF gave leaves BUF as it was. -/
def Obligations.ReadAfterWriteOnUnit : Prop :=
  ∀ (b n : Nat) (s : State), b + n ≤ 64 →
    (∃ t u, exec (.wrf b n) s = .next t ∧ exec (.rdf b n) t = .next u ∧ u.res.toNat = s.val.toNat % 2 ^ n) ∧
    (∃ t u, exec (.rdf b n) s = .next t ∧ exec (.wrf b n) { t with val := t.res } = .next u ∧ u.buf = s.buf)

/-- R96, the spec's inference from R90, R91, R93 and R95: ENC then DEC leaves the point registers with the truncated
values, which are the same values within the bounds of R90; a second ENC gives the same BUF unless a negative zero
arose; DEC then ENC keeps a record without one. -/
def Obligations.RoundTripOnUnit : Prop :=
  (∀ s : State, ∃ t u w, exec .enc s = .next t ∧ exec .dec t = .next u ∧ exec .enc u = .next w ∧
    pointOf u = truncatePoint (pointOf s) ∧ (InRange (pointOf s) → SamePoint s u) ∧
    (¬LonNegativeZero t.buf → ¬LatNegativeZero t.buf → w.buf = t.buf)) ∧
  (∀ s : State, ∃ t u, exec .dec s = .next t ∧ exec .enc t = .next u ∧
    (¬LonNegativeZero s.buf → ¬LatNegativeZero s.buf → u.buf = s.buf))

/-! ## The functions -/

/-- R61, without an upper limit on the size. -/
def Obligations.MaskPattern : Prop :=
  ∀ n : Nat, maskOf n = 2 ^ n - 1 ∧ ∀ k, (maskOf n).testBit k = decide (k < n)

/-- R62: in bounds, `read_field` is the sum, bit `i` of the result is the buffer's bit at `begin + size - 1 - i`, the
result is below `2^size`, and it depends on no bit outside the field. -/
def Obligations.ReadFieldIsSum : Prop :=
  ∀ (B : Word) (b n : Nat), b + n ≤ 64 → ∃ v, readField B b n = some v ∧ v = fieldSum B b n ∧ v < 2 ^ n ∧
    (∀ i, v.testBit i = (decide (i < n) && B.getLsbD (b + n - 1 - i))) ∧
    ∀ C : Word, (∀ k, b ≤ k → k < b + n → C.getLsbD k = B.getLsbD k) → readField C b n = some v

/-- R63, the spec's inference from R62: `read_field` in word arithmetic, the reversal of the slice. -/
def Obligations.ReadFieldIsReversedSlice : Prop :=
  ∀ (B : Word) (b n : Nat), b + n ≤ 64 → readField B b n = some (revSum n (B.toNat / 2 ^ b % 2 ^ n))

/-- R64: in bounds, `write_field` puts bit `i` of the widened value at `begin + size - 1 - i`, for every integer; every
other bit stays; and bits of the value at and above `size` are not used. -/
def Obligations.WriteFieldBits : Prop :=
  ∀ (B : Word) (b n : Nat) (value : Int), b + n ≤ 64 → ∃ C, writeField B b n value = some C ∧
    (∀ i, i < n → C.getLsbD (b + n - 1 - i) = (lowBits 64 value).testBit i) ∧
    (∀ j, j < n → C.getLsbD (b + j) = (lowBits 64 value).testBit (n - 1 - j)) ∧
    (∀ k, k < b ∨ b + n ≤ k → C.getLsbD k = B.getLsbD k) ∧
    ∀ value' : Int, lowBits n value' = lowBits n value → writeField B b n value' = some C

/-- R65, the spec's inference from R64: `write_field` in word arithmetic; the field's mask fits 64 bits. -/
def Obligations.WriteFieldInWordArithmetic : Prop :=
  ∀ (B : Word) (b n : Nat) (value : Int), b + n ≤ 64 →
    (2 ^ n - 1) * 2 ^ b < 2 ^ 64 ∧
    writeField B b n value = some ((B &&& ~~~BitVec.ofNat 64 ((2 ^ n - 1) * 2 ^ b)) |||
      BitVec.ofNat 64 (revSum n (lowBits n value) * 2 ^ b))

/-- R68: read after write gives `value mod 2^size`, the value itself exactly when it fits; write after read gives the
buffer back. -/
def Obligations.FieldsAreMutualInverses : Prop :=
  ∀ (B : Word) (b n : Nat), b + n ≤ 64 →
    (∀ value : Int, (writeField B b n value).bind (fun C => readField C b n) = some (lowBits n value) ∧
      ((lowBits n value : Int) = value ↔ 0 ≤ value ∧ value < 2 ^ n)) ∧
    (readField B b n).bind (fun v => writeField B b n v) = some B

/-- R69: a call not in bounds gives no value and no buffer, and only such a call does; `mask` never fails. -/
def Obligations.OutOfBoundsHasNoValue : Prop :=
  ∀ (B : Word) (b n : Nat) (value : Int),
    (readField B b n = none ↔ 64 < b + n) ∧ (writeField B b n value = none ↔ 64 < b + n)

/-- R73, the spec's inference from R64: (a) a disjoint field reads the same, (b) disjoint writes commute, (c) of
overlapping writes the later wins the shared bits and they need not commute, (d) writing twice is writing once. -/
def Obligations.FrameAndOrderOfFields : Prop :=
  (∀ (B C : Word) (b n b' n' : Nat) (v : Int), writeField B b n v = some C → b' + n' ≤ b ∨ b + n ≤ b' →
    readField C b' n' = readField B b' n') ∧
  (∀ (B : Word) (b n b' n' : Nat) (v v' : Int), b' + n' ≤ b ∨ b + n ≤ b' →
    (writeField B b n v).bind (fun C => writeField C b' n' v') =
      (writeField B b' n' v').bind (fun C => writeField C b n v)) ∧
  (∀ (B C D : Word) (b n b' n' : Nat) (v v' : Int), writeField B b n v = some C → writeField C b' n' v' = some D →
    ∀ i, i < n' → D.getLsbD (b' + n' - 1 - i) = (lowBits 64 v').testBit i) ∧
  (∃ (B : Word) (b n b' n' : Nat) (v v' : Int), b + n ≤ 64 ∧ b' + n' ≤ 64 ∧
    (writeField B b n v).bind (fun C => writeField C b' n' v') ≠
      (writeField B b' n' v').bind (fun C => writeField C b n v)) ∧
  (∀ (B C : Word) (b n : Nat) (v : Int), writeField B b n v = some C → writeField C b n v = some C)

/-- R75, the spec's decision D7 (`This spec takes the literal reading`): width 0 reads 0 and writes nothing, in bounds
up to `begin = 64` and not beyond. -/
def Obligations.WidthZero : Prop :=
  ∀ (B : Word) (b : Nat) (value : Int),
    (b ≤ 64 → readField B b 0 = some 0 ∧ writeField B b 0 value = some B) ∧
    (64 < b → readField B b 0 = none ∧ writeField B b 0 value = none)

/-- R33, the spec's inference from R31 and R32: a field read inside another field gives the matching run of the outer
field's value, whoever wrote it. -/
def Obligations.FieldInsideFieldReadsItsPart : Prop :=
  ∀ (B : Word) (b n i m v : Nat), readField B b n = some v → i + m ≤ n →
    readField B (b + i) m = some (v / 2 ^ (n - i - m) % 2 ^ m)

/-- R6, the spec's inference from R5: the 64-bit view is the little-endian reading of the eight bytes and loses nothing;
bit index `k` is bit `k mod 8` of byte `k div 8`. -/
def Obligations.BufferIsItsEightBytes : Prop :=
  ∀ B : Word, B.toNat = ∑ j ∈ Finset.range 8, (bufByte B j).toNat * 2 ^ (8 * j) ∧
    (∀ j, j < 8 → (bufByte B j).toNat = B.toNat / 2 ^ (8 * j) % 256) ∧
    (∀ k, k < 64 → bufBit B k = B.toNat / 2 ^ k % 2 ∧ B.getLsbD k = (bufByte B (k / 8)).getLsbD (k % 8)) ∧
    wordOfCells (bufCells B) = B

/-- R83, and R84 which the spec infers from it: the ten rows of the layout table, in order, and each bit index 0..63 in
exactly one field. -/
def Obligations.LayoutPartitionsRecord : Prop :=
  layout.map (fun f => (f.offset, f.width)) =
    [(0, 1), (1, 8), (9, 6), (15, 6), (21, 12), (33, 1), (34, 7), (41, 6), (47, 6), (53, 11)] ∧
  ∀ k, k < 64 → ∃ f : LayoutField, (f.offset ≤ k ∧ k < f.offset + f.width) ∧
    ∀ g : LayoutField, g.offset ≤ k ∧ k < g.offset + g.width → g = f

/-- The properties of the layout that R84 infers from R83: each field begins where the one before ends, the first at 0,
and the last ends at 63; no two fields share a bit index, and each index 0..63 has its field; and every field is in
bounds, so no `read_field` or `write_field` of one fails. -/
def Obligations.LayoutFieldsFollowEachOther : Prop :=
  (∀ (n : Nat) (f g : LayoutField), layout[n]? = some f → layout[n + 1]? = some g → f.offset + f.width = g.offset) ∧
  (∃ f, layout.head? = some f ∧ f.offset = 0) ∧ (∃ f, layout.getLast? = some f ∧ f.offset + f.width - 1 = 63) ∧
  (∀ (f g : LayoutField) (k : Nat), f.contains k = true → g.contains k = true → f = g) ∧
  (∀ (k : Nat) (f : LayoutField), fieldAt k = some f ↔ f.contains k = true) ∧
  (∀ k : Nat, (fieldAt k).isSome = true ↔ k < 64) ∧
  (∀ (B : Word) (f : LayoutField) (z : Int), InBounds f.offset f.width ∧
    readField B f.offset f.width = some (recordField B f) ∧ ∃ C, writeField B f.offset f.width z = some C)

/-- R84's byte map, which the spec infers from R83: every byte of every record holds the runs of field bits that the map
lists for it, the lower index the more significant; and every byte of an encoded record holds those of the inputs of
`encode`, each cut to its field's width. -/
def Obligations.RecordBytesHoldTheirRuns : Prop :=
  (∀ (B : Word) (j m : Nat), j < 8 → m < 8 → (bufByte B j).getLsbD m = recordByteBit (recordField B) j m) ∧
  (∀ (p : GeoPoint) (j m : Nat), j < 8 → m < 8 → (bufByte (encodePoint p) j).getLsbD m =
    recordByteBit (fun f => (encodeInput p f % 2 ^ f.width).toNat) j m)

/-- R85: `encode` is the ten `write_field`s of the rule in ANY order, and none of them fails; since each bit is written,
the buffer they start from, all-zero in the rule, does not matter: nothing of it survives. -/
def Obligations.EncodeWritesRowsInAnyOrder : Prop :=
  ∀ (p : GeoPoint) (rows : List (Nat × Nat × Int)) (start : Word), rows.Perm (encodeRows p) →
    rows.foldlM (m := Option) (fun (B : Word) r => writeField B r.1 r.2.1 r.2.2) start = some (encodePoint p)

/-- R88: `decode` is the ten `read_field`s of the rule, none of which fails, and the two signs. -/
def Obligations.DecodeReadsRows : Prop :=
  ∀ B : Word, ∃ ls lm lmin lsec lms la am amin asec ams : Nat,
    readField B 0 1 = some ls ∧ readField B 1 8 = some lm ∧ readField B 9 6 = some lmin ∧
    readField B 15 6 = some lsec ∧ readField B 21 12 = some lms ∧ readField B 33 1 = some la ∧
    readField B 34 7 = some am ∧ readField B 41 6 = some amin ∧ readField B 47 6 = some asec ∧
    readField B 53 11 = some ams ∧
    decodeRecord B =
      { longitude := if ls = 0 then -(lm : Int) else (lm : Int)
        longitudeTime := { minute := lmin, second := lsec, millisecond := lms }
        latitude := if la = 0 then -(am : Int) else (am : Int)
        latitudeTime := { minute := amin, second := asec, millisecond := ams } }

/-- R89, the spec's inference from R83 and R88: what every decoded record is bounded by. -/
def Obligations.DecodeRange : Prop :=
  ∀ B : Word, InRange (decodeRecord B)

/-- R90: within the bounds `decode(encode(p)) = p`; without them, `p` with each component truncated. -/
def Obligations.RoundTripOfPoint : Prop :=
  ∀ p : GeoPoint, decodeRecord (encodePoint p) = truncatePoint p ∧ (InRange p → decodeRecord (encodePoint p) = p)

/-- R91, the spec's inference from R85, R86 and R88: re-encoding a decoded record sets exactly the sign bits of its
negative zeros, so it gives the record back exactly when there is none; `decode` is not injective. -/
def Obligations.NegativeZeroReencodes : Prop :=
  (∀ B : Word, encodePoint (decodeRecord B) =
    B ||| (if LonNegativeZero B then 0x1 else 0) ||| (if LatNegativeZero B then 0x200000000 else 0)) ∧
  (∀ B : Word, encodePoint (decodeRecord B) = B ↔ ¬LonNegativeZero B ∧ ¬LatNegativeZero B) ∧
  (∃ B C : Word, B ≠ C ∧ decodeRecord B = decodeRecord C)

/-- R92: changing one input of `encode` changes only the bits of its own field or fields. -/
def Obligations.FieldIndependence : Prop :=
  ∀ (p : GeoPoint) (x : Int) (k : Nat),
    (k < 21 ∨ 32 < k → (encodePoint { p with longitudeTime := { p.longitudeTime with millisecond := x } }).getLsbD k =
      (encodePoint p).getLsbD k) ∧
    (8 < k → (encodePoint { p with longitude := x }).getLsbD k = (encodePoint p).getLsbD k) ∧
    (k < 9 ∨ 14 < k → (encodePoint { p with longitudeTime := { p.longitudeTime with minute := x } }).getLsbD k =
      (encodePoint p).getLsbD k) ∧
    (k < 15 ∨ 20 < k → (encodePoint { p with longitudeTime := { p.longitudeTime with second := x } }).getLsbD k =
      (encodePoint p).getLsbD k) ∧
    (k < 33 ∨ 40 < k → (encodePoint { p with latitude := x }).getLsbD k = (encodePoint p).getLsbD k) ∧
    (k < 41 ∨ 46 < k → (encodePoint { p with latitudeTime := { p.latitudeTime with minute := x } }).getLsbD k =
      (encodePoint p).getLsbD k) ∧
    (k < 47 ∨ 52 < k → (encodePoint { p with latitudeTime := { p.latitudeTime with second := x } }).getLsbD k =
      (encodePoint p).getLsbD k) ∧
    (k < 53 ∨ 63 < k → (encodePoint { p with latitudeTime := { p.latitudeTime with millisecond := x } }).getLsbD k =
      (encodePoint p).getLsbD k)

/-- R94 and R16: the sign test is bit 63 of the register, `abs` is the register or its negation read as unsigned, at
most `2^63`; and ENC gives `encode` of the integers the registers stand for, the time registers read as signed just
as well as unsigned. -/
def Obligations.CoordinatesAreTwosComplement : Prop :=
  (∀ r : Word, (signed64 r < 0 ↔ r.getLsbD 63 = true) ∧
    (signed64 r).natAbs = (if r.getLsbD 63 then -r else r).toNat ∧ (signed64 r).natAbs ≤ 2 ^ 63) ∧
  ∀ s : State, exec .enc s = .next { s with
    buf := encodePoint
      { longitude := signed64 s.lon
        longitudeTime :=
          { minute := signed64 s.lonmin, second := signed64 s.lonsec, millisecond := signed64 s.lonms }
        latitude := signed64 s.lat
        latitudeTime :=
          { minute := signed64 s.latmin, second := signed64 s.latsec, millisecond := signed64 s.latms } }
    reply := .answer .ok }
end

