-- ==== Sys2Proof/Laws/Fields.lean ====
section
/-! SUPPORT. The shared operations over the buffer, each said once: which bit a write changes, what a field reads as,
and that the byte view keeps its form. -/

namespace Sys2Proof.Machine

open Sys2Proof

theorem getLsbD_setBufBit (B : Word) (k : Nat) (b : Bool) (i : Nat) (hk : k < 64) :
    (setBufBit B k b).getLsbD i = if i = k then b else B.getLsbD i := by
  unfold setBufBit
  cases b
  · by_cases hi : i = k
    · subst hi; simp [hk]
    · by_cases h64 : i < 64
      · simp [hi, h64]
      · simp [hi, BitVec.getLsbD_of_ge B i (by omega)]
  · by_cases hi : i = k
    · subst hi; simp [hk]
    · simp [hi, Ne.symm hi]

/-- Everything a field write does: the bits of the field come from the value, most significant first, and every other
bit stays (R64). -/
theorem getLsbD_depositField (B : Word) (start : Nat) :
    ∀ (size : Nat) (v : Word) (k : Nat), start + size ≤ 64 →
      (depositField B start size v).getLsbD k =
        if start ≤ k ∧ k < start + size then v.getLsbD (start + size - 1 - k) else B.getLsbD k
  | 0, v, k, _ => by simp [depositField, show ¬(start ≤ k ∧ k < start) by omega]
  | n + 1, v, k, h => by
    have ih := getLsbD_depositField B start n (v >>> 1) k (by omega)
    simp only [depositField]
    rw [getLsbD_setBufBit _ _ _ _ (by omega), ih]
    by_cases hk : k = start + n
    · subst hk; simp
    · by_cases hin : start ≤ k ∧ k < start + n
      · have h1 : start ≤ k ∧ k < start + (n + 1) := by omega
        have h2 : 1 + (start + n - 1 - k) = start + (n + 1) - 1 - k := by omega
        rw [if_neg hk, if_pos hin, if_pos h1, BitVec.getLsbD_ushiftRight, h2]
      · have h1 : ¬(start ≤ k ∧ k < start + (n + 1)) := by omega
        simp [hk, hin, h1]

theorem fieldValue_lt (B : Word) (start : Nat) : ∀ size, fieldValue B start size < 2 ^ size
  | 0 => by simp [fieldValue]
  | n + 1 => by
    have ih := fieldValue_lt B start n
    have hb : bufBit B (start + n) ≤ 1 := by unfold bufBit; cases B.getLsbD (start + n) <;> simp
    simp only [fieldValue, Nat.pow_succ]; omega

/-- Everything a field read gives: bit `i` of the value is the buffer's bit at `start + size - 1 - i`, and there are no
bits at or above `size` (R62). -/
theorem testBit_fieldValue (B : Word) (start : Nat) :
    ∀ (size i : Nat), (fieldValue B start size).testBit i = (decide (i < size) && B.getLsbD (start + size - 1 - i))
  | 0, i => by simp [fieldValue]
  | n + 1, 0 => by
    have : (2 * fieldValue B start n + bufBit B (start + n)) % 2 = bufBit B (start + n) := by
      unfold bufBit; cases B.getLsbD (start + n) <;> simp
    simp only [fieldValue, Nat.testBit_zero, this]
    unfold bufBit; simp
  | n + 1, i + 1 => by
    have ih := testBit_fieldValue B start n i
    have : (2 * fieldValue B start n + bufBit B (start + n)) / 2 = fieldValue B start n := by
      unfold bufBit; cases B.getLsbD (start + n)
      · simp
      · simp; omega
    have h2 : start + (n + 1) - 1 - (i + 1) = start + n - 1 - i := by omega
    simp only [fieldValue, Nat.testBit_succ, this, ih, h2]
    by_cases hi : i < n <;> simp [hi]

/-- A field read depends on the bits of the field alone. -/
theorem fieldValue_congr (B C : Word) (start : Nat) :
    ∀ size, (∀ k, start ≤ k → k < start + size → B.getLsbD k = C.getLsbD k) →
      fieldValue B start size = fieldValue C start size
  | 0, _ => rfl
  | n + 1, h => by
    have ih := fieldValue_congr B C start n fun k h1 h2 => h k h1 (by omega)
    simp only [fieldValue, ih, bufBit, h (start + n) (by omega) (by omega)]

theorem fieldValue_depositField (B : Word) (start size : Nat) (v : Word) (h : start + size ≤ 64) :
    fieldValue (depositField B start size v) start size = v.toNat % 2 ^ size := by
  apply Nat.eq_of_testBit_eq
  intro i
  rw [testBit_fieldValue, getLsbD_depositField _ _ _ _ _ h, Nat.testBit_mod_two_pow]
  by_cases hi : i < size
  · have h1 : start ≤ start + size - 1 - i ∧ start + size - 1 - i < start + size := by omega
    have h2 : start + size - 1 - (start + size - 1 - i) = i := by omega
    rw [if_pos h1, h2]; rfl
  · simp [hi]

theorem depositField_fieldValue (B : Word) (start size : Nat) (h : start + size ≤ 64) :
    depositField B start size (BitVec.ofNat 64 (fieldValue B start size)) = B := by
  apply BitVec.eq_of_getLsbD_eq
  intro k _
  rw [getLsbD_depositField _ _ _ _ _ h]
  split
  · have h2 : start + size - 1 - (start + size - 1 - k) = k := by omega
    rw [BitVec.getLsbD_ofNat, testBit_fieldValue, h2]
    have : start + size - 1 - k < 64 := by omega
    have h4 : start + size - 1 - k < size := by omega
    simp [this, h4]
  · rfl

theorem bufCells_wf (B : Word) : Memory.wf (bufCells B) = true := by
  simp [Memory.wf, bufCells, List.range_succ]

@[simp] theorem readField_inBounds (B : Word) (start size : Nat) (h : start + size ≤ 64) :
    readField B start size = some (fieldValue B start size) := by
  simp [readField, h]

@[simp] theorem readField_outOfBounds (B : Word) (start size : Nat) (h : 64 < start + size) :
    readField B start size = none := by
  simp [readField, h]

@[simp] theorem writeField_inBounds (B : Word) (start size : Nat) (value : Int) (h : start + size ≤ 64) :
    writeField B start size value = some (depositField B start size (widen value)) := by
  simp [writeField, h]

@[simp] theorem writeField_outOfBounds (B : Word) (start size : Nat) (value : Int) (h : 64 < start + size) :
    writeField B start size value = none := by
  simp [writeField, h]

/-- VAL is already 64 bits: widening its number gives it back (R66). -/
@[simp] theorem widen_toNat (v : Word) : widen (v.toNat : Int) = v := by
  simp [widen]

end Sys2Proof.Machine
end

