-- ==== Sys2Proof/Laws/State.lean ====
section
/-! SUPPORT. What each field of the state is after each named update. -/

namespace Sys2Proof.Machine

open Sys2Proof

/-! ## respond -/

@[simp] theorem respond_buf (r : Response) (s : State) : (respond r s).buf = s.buf := rfl
@[simp] theorem respond_val (r : Response) (s : State) : (respond r s).val = s.val := rfl
@[simp] theorem respond_res (r : Response) (s : State) : (respond r s).res = s.res := rfl
@[simp] theorem respond_lon (r : Response) (s : State) : (respond r s).lon = s.lon := rfl
@[simp] theorem respond_lonmin (r : Response) (s : State) : (respond r s).lonmin = s.lonmin := rfl
@[simp] theorem respond_lonsec (r : Response) (s : State) : (respond r s).lonsec = s.lonsec := rfl
@[simp] theorem respond_lonms (r : Response) (s : State) : (respond r s).lonms = s.lonms := rfl
@[simp] theorem respond_lat (r : Response) (s : State) : (respond r s).lat = s.lat := rfl
@[simp] theorem respond_latmin (r : Response) (s : State) : (respond r s).latmin = s.latmin := rfl
@[simp] theorem respond_latsec (r : Response) (s : State) : (respond r s).latsec = s.latsec := rfl
@[simp] theorem respond_latms (r : Response) (s : State) : (respond r s).latms = s.latms := rfl
@[simp] theorem respond_status (r : Response) (s : State) : (respond r s).status = s.status := rfl
@[simp] theorem respond_reply (r : Response) (s : State) : (respond r s).reply = .answer r := rfl
@[simp] theorem respond_pending (r : Response) (s : State) : (respond r s).pending = s.pending := rfl
@[simp] theorem respond_draws (r : Response) (s : State) : (respond r s).draws = s.draws := rfl

/-! ## raise -/

@[simp] theorem raise_buf (f : Fault) (s : State) : (raise f s).buf = s.buf := rfl
@[simp] theorem raise_val (f : Fault) (s : State) : (raise f s).val = s.val := rfl
@[simp] theorem raise_res (f : Fault) (s : State) : (raise f s).res = s.res := rfl
@[simp] theorem raise_lon (f : Fault) (s : State) : (raise f s).lon = s.lon := rfl
@[simp] theorem raise_lonmin (f : Fault) (s : State) : (raise f s).lonmin = s.lonmin := rfl
@[simp] theorem raise_lonsec (f : Fault) (s : State) : (raise f s).lonsec = s.lonsec := rfl
@[simp] theorem raise_lonms (f : Fault) (s : State) : (raise f s).lonms = s.lonms := rfl
@[simp] theorem raise_lat (f : Fault) (s : State) : (raise f s).lat = s.lat := rfl
@[simp] theorem raise_latmin (f : Fault) (s : State) : (raise f s).latmin = s.latmin := rfl
@[simp] theorem raise_latsec (f : Fault) (s : State) : (raise f s).latsec = s.latsec := rfl
@[simp] theorem raise_latms (f : Fault) (s : State) : (raise f s).latms = s.latms := rfl
@[simp] theorem raise_status (f : Fault) (s : State) : (raise f s).status = packStatus true f.code := rfl
@[simp] theorem raise_reply (f : Fault) (s : State) : (raise f s).reply = .answer f.response := rfl
@[simp] theorem raise_pending (f : Fault) (s : State) : (raise f s).pending = s.pending := rfl
@[simp] theorem raise_draws (f : Fault) (s : State) : (raise f s).draws = s.draws := rfl

/-! ## setRes -/

@[simp] theorem setRes_buf (v : Word) (s : State) : (setRes v s).buf = s.buf := rfl
@[simp] theorem setRes_val (v : Word) (s : State) : (setRes v s).val = s.val := rfl
@[simp] theorem setRes_res (v : Word) (s : State) : (setRes v s).res = v := rfl
@[simp] theorem setRes_lon (v : Word) (s : State) : (setRes v s).lon = s.lon := rfl
@[simp] theorem setRes_lonmin (v : Word) (s : State) : (setRes v s).lonmin = s.lonmin := rfl
@[simp] theorem setRes_lonsec (v : Word) (s : State) : (setRes v s).lonsec = s.lonsec := rfl
@[simp] theorem setRes_lonms (v : Word) (s : State) : (setRes v s).lonms = s.lonms := rfl
@[simp] theorem setRes_lat (v : Word) (s : State) : (setRes v s).lat = s.lat := rfl
@[simp] theorem setRes_latmin (v : Word) (s : State) : (setRes v s).latmin = s.latmin := rfl
@[simp] theorem setRes_latsec (v : Word) (s : State) : (setRes v s).latsec = s.latsec := rfl
@[simp] theorem setRes_latms (v : Word) (s : State) : (setRes v s).latms = s.latms := rfl
@[simp] theorem setRes_status (v : Word) (s : State) : (setRes v s).status = s.status := rfl
@[simp] theorem setRes_reply (v : Word) (s : State) : (setRes v s).reply = s.reply := rfl
@[simp] theorem setRes_pending (v : Word) (s : State) : (setRes v s).pending = s.pending := rfl
@[simp] theorem setRes_draws (v : Word) (s : State) : (setRes v s).draws = s.draws := rfl

/-! ## setBuf -/

@[simp] theorem setBuf_buf (v : Word) (s : State) : (setBuf v s).buf = v := rfl
@[simp] theorem setBuf_val (v : Word) (s : State) : (setBuf v s).val = s.val := rfl
@[simp] theorem setBuf_res (v : Word) (s : State) : (setBuf v s).res = s.res := rfl
@[simp] theorem setBuf_lon (v : Word) (s : State) : (setBuf v s).lon = s.lon := rfl
@[simp] theorem setBuf_lonmin (v : Word) (s : State) : (setBuf v s).lonmin = s.lonmin := rfl
@[simp] theorem setBuf_lonsec (v : Word) (s : State) : (setBuf v s).lonsec = s.lonsec := rfl
@[simp] theorem setBuf_lonms (v : Word) (s : State) : (setBuf v s).lonms = s.lonms := rfl
@[simp] theorem setBuf_lat (v : Word) (s : State) : (setBuf v s).lat = s.lat := rfl
@[simp] theorem setBuf_latmin (v : Word) (s : State) : (setBuf v s).latmin = s.latmin := rfl
@[simp] theorem setBuf_latsec (v : Word) (s : State) : (setBuf v s).latsec = s.latsec := rfl
@[simp] theorem setBuf_latms (v : Word) (s : State) : (setBuf v s).latms = s.latms := rfl
@[simp] theorem setBuf_status (v : Word) (s : State) : (setBuf v s).status = s.status := rfl
@[simp] theorem setBuf_reply (v : Word) (s : State) : (setBuf v s).reply = s.reply := rfl
@[simp] theorem setBuf_pending (v : Word) (s : State) : (setBuf v s).pending = s.pending := rfl
@[simp] theorem setBuf_draws (v : Word) (s : State) : (setBuf v s).draws = s.draws := rfl

/-! ## setPoint -/

@[simp] theorem setPoint_buf (p : GeoPoint) (s : State) : (setPoint p s).buf = s.buf := rfl
@[simp] theorem setPoint_val (p : GeoPoint) (s : State) : (setPoint p s).val = s.val := rfl
@[simp] theorem setPoint_res (p : GeoPoint) (s : State) : (setPoint p s).res = s.res := rfl
@[simp] theorem setPoint_lon (p : GeoPoint) (s : State) : (setPoint p s).lon = sext64 p.longitude := rfl
@[simp] theorem setPoint_lonmin (p : GeoPoint) (s : State) : (setPoint p s).lonmin = sext64 p.longitudeTime.minute := rfl
@[simp] theorem setPoint_lonsec (p : GeoPoint) (s : State) : (setPoint p s).lonsec = sext64 p.longitudeTime.second := rfl
@[simp] theorem setPoint_lonms (p : GeoPoint) (s : State) : (setPoint p s).lonms = sext64 p.longitudeTime.millisecond := rfl
@[simp] theorem setPoint_lat (p : GeoPoint) (s : State) : (setPoint p s).lat = sext64 p.latitude := rfl
@[simp] theorem setPoint_latmin (p : GeoPoint) (s : State) : (setPoint p s).latmin = sext64 p.latitudeTime.minute := rfl
@[simp] theorem setPoint_latsec (p : GeoPoint) (s : State) : (setPoint p s).latsec = sext64 p.latitudeTime.second := rfl
@[simp] theorem setPoint_latms (p : GeoPoint) (s : State) : (setPoint p s).latms = sext64 p.latitudeTime.millisecond := rfl
@[simp] theorem setPoint_status (p : GeoPoint) (s : State) : (setPoint p s).status = s.status := rfl
@[simp] theorem setPoint_reply (p : GeoPoint) (s : State) : (setPoint p s).reply = s.reply := rfl
@[simp] theorem setPoint_pending (p : GeoPoint) (s : State) : (setPoint p s).pending = s.pending := rfl
@[simp] theorem setPoint_draws (p : GeoPoint) (s : State) : (setPoint p s).draws = s.draws := rfl

/-! ## resetUnit -/

@[simp] theorem resetUnit_buf (s : State) : (resetUnit s).buf = (Config.resetData s.draws).buf := rfl
@[simp] theorem resetUnit_val (s : State) : (resetUnit s).val = (Config.resetData s.draws).val := rfl
@[simp] theorem resetUnit_res (s : State) : (resetUnit s).res = (Config.resetData s.draws).res := rfl
@[simp] theorem resetUnit_lon (s : State) : (resetUnit s).lon = (Config.resetData s.draws).lon := rfl
@[simp] theorem resetUnit_lonmin (s : State) : (resetUnit s).lonmin = (Config.resetData s.draws).lonmin := rfl
@[simp] theorem resetUnit_lonsec (s : State) : (resetUnit s).lonsec = (Config.resetData s.draws).lonsec := rfl
@[simp] theorem resetUnit_lonms (s : State) : (resetUnit s).lonms = (Config.resetData s.draws).lonms := rfl
@[simp] theorem resetUnit_lat (s : State) : (resetUnit s).lat = (Config.resetData s.draws).lat := rfl
@[simp] theorem resetUnit_latmin (s : State) : (resetUnit s).latmin = (Config.resetData s.draws).latmin := rfl
@[simp] theorem resetUnit_latsec (s : State) : (resetUnit s).latsec = (Config.resetData s.draws).latsec := rfl
@[simp] theorem resetUnit_latms (s : State) : (resetUnit s).latms = (Config.resetData s.draws).latms := rfl
@[simp] theorem resetUnit_status (s : State) : (resetUnit s).status = 0 := rfl
@[simp] theorem resetUnit_reply (s : State) : (resetUnit s).reply = .silent := rfl
@[simp] theorem resetUnit_pending (s : State) : (resetUnit s).pending = s.pending := rfl
@[simp] theorem resetUnit_draws (s : State) : (resetUnit s).draws = s.draws + 1 := rfl

/-! ## launch and withFetchWord -/

@[simp] theorem launch_status (d : ResetData) : (State.launch d).status = 0 := rfl
@[simp] theorem launch_reply (d : ResetData) : (State.launch d).reply = .silent := rfl
@[simp] theorem launch_pending (d : ResetData) : (State.launch d).pending = [] := rfl
@[simp] theorem withFetchWord_pending (s : State) (nbits w : Nat) :
    (s.withFetchWord nbits w).pending = .issue (BitVec.ofNat 32 (w % 2 ^ nbits)) :: s.pending := rfl
@[simp] theorem withFetchWord_status (s : State) (nbits w : Nat) : (s.withFetchWord nbits w).status = s.status := rfl

end Sys2Proof.Machine
end

