-- ==== Sys2Proof/Laws/Actions.lean ====
section
/-! SUPPORT. What each command and each host action can do, said once. -/

namespace Sys2Proof.Machine

open Sys2Proof

/-- Fault entry leaves FAULT 1 (R105). -/
@[simp] theorem raise_faulted (f : Fault) (s : State) : (raise f s).faulted = true := by
  cases f <;> simp [State.faulted, packStatus, Fault.code]

/-- Fault entry leaves the code in CAUSE (R105). -/
@[simp] theorem raise_cause (f : Fault) (s : State) : (raise f s).cause = f.code := by
  cases f <;> simp [State.cause, packStatus, Fault.code]

/-- FAULT depends on STATUS alone. -/
theorem faulted_congr {s t : State} (h : t.status = s.status) : t.faulted = s.faulted := by
  simp [State.faulted, h]

/-- CAUSE depends on STATUS alone. -/
theorem cause_congr {s t : State} (h : t.status = s.status) : t.cause = s.cause := by
  simp [State.cause, h]

@[simp] theorem resetUnit_faulted (s : State) : (resetUnit s).faulted = false := by
  simp [State.faulted]

@[simp] theorem launch_faulted (d : ResetData) : (State.launch d).faulted = false := by
  simp [State.faulted]

/-- A host write of a register leaves STATUS, the reply, the pending actions and the draw count alone (R17, R21). -/
theorem writeReg_frame {r : Reg} {v : Word} {s t : State} (h : writeReg r v s = some t) :
    t.status = s.status ∧ t.reply = s.reply ∧ t.pending = s.pending ∧ t.draws = s.draws := by
  cases r <;> simp [writeReg] at h <;> subst h <;> simp

/-- Register numbers and registers agree (R19): every defined register has one number. -/
theorem regOfNumber_injective : ∀ (r : Reg) (n m : Fin 16), regOfNumber n = some r → regOfNumber m = some r → n = m := by
  intro r; cases r <;> decide

theorem execMask_inRange (size : Nat) (s : State) (h : size ≤ 64) :
    execMask size s = .next (respond .ok (setRes (zext64 (maskOf size)) s)) := by
  simp [execMask, h]

theorem execMask_outOfRange (size : Nat) (s : State) (h : 64 < size) :
    execMask size s = .next (raise .outOfBounds s) := by
  simp [execMask, h]

theorem execRdf_inBounds (start size : Nat) (s : State) (h : start + size ≤ 64) :
    execRdf start size s = .next (respond .ok (setRes (zext64 (fieldValue s.buf start size)) s)) := by
  simp [execRdf, h]

theorem execRdf_outOfBounds (start size : Nat) (s : State) (h : 64 < start + size) :
    execRdf start size s = .next (raise .outOfBounds s) := by
  simp [execRdf, h]

theorem execWrf_inBounds (start size : Nat) (s : State) (h : start + size ≤ 64) :
    execWrf start size s = .next (respond .ok (setBuf (depositField s.buf start size s.val) s)) := by
  simp [execWrf, h]

theorem execWrf_outOfBounds (start size : Nat) (s : State) (h : 64 < start + size) :
    execWrf start size s = .next (raise .outOfBounds s) := by
  simp [execWrf, h]

/-- All a command can do: raise OutOfBounds, or respond OK after writing RES, BUF or the point registers. -/
theorem exec_cases {i : Instr} {s t : State} (h : exec i s = .next t) :
    t = raise .outOfBounds s ∨
    (∃ size, i = .mask size ∧ t = respond .ok (setRes (zext64 (maskOf size)) s)) ∨
    (∃ start size, i = .rdf start size ∧ t = respond .ok (setRes (zext64 (fieldValue s.buf start size)) s)) ∨
    (∃ start size, i = .wrf start size ∧ t = respond .ok (setBuf (depositField s.buf start size s.val) s)) ∨
    (i = .enc ∧ t = respond .ok (setBuf (encodePoint (pointOf s)) s)) ∨
    (i = .dec ∧ t = respond .ok (setPoint (decodeRecord s.buf) s)) := by
  cases i with
  | mask size =>
    by_cases hb : size ≤ 64
    · have := (execMask_inRange size s hb).symm.trans h
      cases this; exact .inr (.inl ⟨size, rfl, rfl⟩)
    · have := (execMask_outOfRange size s (by omega)).symm.trans h
      cases this; exact .inl rfl
  | rdf start size =>
    by_cases hb : start + size ≤ 64
    · have := (execRdf_inBounds start size s hb).symm.trans h
      cases this; exact .inr (.inr (.inl ⟨start, size, rfl, rfl⟩))
    · have := (execRdf_outOfBounds start size s (by omega)).symm.trans h
      cases this; exact .inl rfl
  | wrf start size =>
    by_cases hb : start + size ≤ 64
    · have := (execWrf_inBounds start size s hb).symm.trans h
      cases this; exact .inr (.inr (.inr (.inl ⟨start, size, rfl, rfl⟩)))
    · have := (execWrf_outOfBounds start size s (by omega)).symm.trans h
      cases this; exact .inl rfl
  | enc => cases h; exact .inr (.inr (.inr (.inr (.inl ⟨rfl, rfl⟩))))
  | dec => cases h; exact .inr (.inr (.inr (.inr (.inr ⟨rfl, rfl⟩))))

theorem exec_next (i : Instr) (s : State) : ∃ t, exec i s = .next t := by
  cases i with
  | mask size => by_cases h : size ≤ 64 <;> simp [exec, execMask, h]
  | rdf start size => cases h : readField s.buf start size <;> simp [exec, execRdf, h]
  | wrf start size => cases h : writeField s.buf start size s.val.toNat <;> simp [exec, execWrf, h]
  | enc => exact ⟨_, rfl⟩
  | dec => exact ⟨_, rfl⟩

/-- A command either raises OutOfBounds or responds OK with STATUS unchanged (R50). -/
theorem exec_response {i : Instr} {s t : State} (h : exec i s = .next t) :
    t = raise .outOfBounds s ∨ (t.reply = .answer .ok ∧ t.status = s.status) := by
  rcases exec_cases h with rfl | ⟨_, _, rfl⟩ | ⟨_, _, _, rfl⟩ | ⟨_, _, _, rfl⟩ | ⟨_, rfl⟩ | ⟨_, rfl⟩ <;> simp

/-- All a HostWrite can do (R21). -/
theorem hostWrite_cases (n : Fin 16) (v : Word) (s : State) :
    (s.faulted = true ∧ hostWrite n v s = respond .refused s) ∨
    (s.faulted = false ∧ ∃ r t, regOfNumber n = some r ∧ writeReg r v s = some t ∧ hostWrite n v s = respond .ok t) ∨
    (s.faulted = false ∧ hostWrite n v s = raise .illegalAccess s) := by
  unfold hostWrite
  cases hf : s.faulted with
  | true => simp
  | false =>
    cases hr : regOfNumber n with
    | none => simp
    | some r => cases hw : writeReg r v s <;> simp [hw]

/-- All a HostRead can do (R23). -/
theorem hostRead_cases (n : Fin 16) (s : State) :
    (∃ r, regOfNumber n = some r ∧ hostRead n s = { s with reply := .value (readReg r s) }) ∨
    (regOfNumber n = none ∧ s.faulted = true ∧ hostRead n s = respond .refused s) ∨
    (regOfNumber n = none ∧ s.faulted = false ∧ hostRead n s = raise .illegalAccess s) := by
  unfold hostRead
  cases hr : regOfNumber n with
  | some r => simp
  | none => cases hf : s.faulted <;> simp

/-- All an Issue can do (R50). -/
theorem issue_cases {w : CommandWord} {s t : State} (h : issue w s = .next t) :
    (s.faulted = true ∧ t = respond .refused s) ∨
    (s.faulted = false ∧ (∃ e, decode w = .error e) ∧ t = raise .illegalCommand s) ∨
    (s.faulted = false ∧ ∃ i, decode w = .ok i ∧ exec i s = .next t) := by
  unfold issue at h
  cases hf : s.faulted with
  | true => simp [hf] at h; simp [h]
  | false =>
    cases hd : decode w with
    | error e => simp [hf, hd] at h; simp [h]
    | ok i => simp [hf, hd] at h; simp [h]

/-- All a step can do: nothing without an action, else its first pending action on the state without it. -/
theorem step_cases {s t : State} (h : step s = .next t) :
    (s.pending = [] ∧ t = s) ∨
    ∃ a rest, s.pending = a :: rest ∧ perform a { s with pending := rest } = .next t := by
  unfold step nextAction at h
  cases hp : s.pending with
  | nil => simp [hp, idle] at h; simp [h]
  | cons a rest => simp [hp] at h; exact .inr ⟨a, rest, rfl, h⟩

end Sys2Proof.Machine
end

