-- ==== Sys2Proof/Laws/Decode.lean ====
section
/-! SUPPORT. What the decoder can answer, said once. -/

namespace Sys2Proof

theorem op_lt (w : CommandWord) : CommandWord.op w < 256 := (w.extractLsb' 24 8).isLt
theorem rsv_lt (w : CommandWord) : CommandWord.rsv w < 256 := (w.extractLsb' 16 8).isLt
theorem size_lt (w : CommandWord) : CommandWord.size w < 256 := (w.extractLsb' 8 8).isLt
theorem start_lt (w : CommandWord) : CommandWord.start w < 256 := (w.extractLsb' 0 8).isLt

/-- A word is the sum of its four fields (R46). -/
theorem word_toNat_eq_fields (w : CommandWord) :
    w.toNat = CommandWord.op w * 2 ^ 24 + CommandWord.rsv w * 2 ^ 16 + CommandWord.size w * 2 ^ 8 +
      CommandWord.start w := by
  have hw := w.isLt
  simp only [CommandWord.op, CommandWord.rsv, CommandWord.size, CommandWord.start, BitVec.extractLsb'_toNat,
    Nat.shiftRight_eq_div_pow]
  omega

/-- A decoded word has a zero reserved field and is one of the five rows (R49). -/
theorem decode_ok_cases {w : CommandWord} {i : Instr} (h : decode w = .ok i) :
    CommandWord.rsv w = 0 ∧
    ((CommandWord.op w = 1 ∧ CommandWord.start w = 0 ∧ i = .mask (CommandWord.size w)) ∨
     (CommandWord.op w = 2 ∧ i = .rdf (CommandWord.start w) (CommandWord.size w)) ∨
     (CommandWord.op w = 3 ∧ i = .wrf (CommandWord.start w) (CommandWord.size w)) ∨
     (CommandWord.op w = 4 ∧ CommandWord.size w = 0 ∧ CommandWord.start w = 0 ∧ i = .enc) ∨
     (CommandWord.op w = 5 ∧ CommandWord.size w = 0 ∧ CommandWord.start w = 0 ∧ i = .dec)) := by
  unfold decode whenUnusedZero at h
  generalize CommandWord.op w = op at h ⊢
  generalize CommandWord.rsv w = rsv at h ⊢
  generalize CommandWord.size w = size at h ⊢
  generalize CommandWord.start w = start at h ⊢
  split at h
  · cases h
  · rename_i hr
    refine ⟨by omega, ?_⟩
    split at h
    · split at h <;> cases h
      exact .inl ⟨rfl, by assumption, rfl⟩
    · cases h; exact .inr (.inl ⟨rfl, rfl⟩)
    · cases h; exact .inr (.inr (.inl ⟨rfl, rfl⟩))
    · split at h <;> cases h
      exact .inr (.inr (.inr (.inl ⟨rfl, by omega, by omega, rfl⟩)))
    · split at h <;> cases h
      exact .inr (.inr (.inr (.inr ⟨rfl, by omega, by omega, rfl⟩)))
    · cases h

/-- A packed word is its fields' sum, without wrap-around (R46). -/
theorem packCommand_toNat (op size start : Nat) (ho : op < 256) (hs : size < 256) (hb : start < 256) :
    (packCommand op size start).toNat = op * 2 ^ 24 + size * 2 ^ 8 + start := by
  simp only [packCommand, BitVec.toNat_ofNat]
  exact Nat.mod_eq_of_lt (by omega)

/-- A well-formed operand comes back from the word that carries it. -/
theorem packCommand_fields (op size start : Nat) (ho : op < 256) (hs : size < 256) (hb : start < 256) :
    CommandWord.op (packCommand op size start) = op ∧ CommandWord.rsv (packCommand op size start) = 0 ∧
    CommandWord.size (packCommand op size start) = size ∧ CommandWord.start (packCommand op size start) = start := by
  have h := (packCommand_toNat op size start ho hs hb).symm.trans (word_toNat_eq_fields _)
  have h1 := op_lt (packCommand op size start)
  have h2 := rsv_lt (packCommand op size start)
  have h3 := size_lt (packCommand op size start)
  have h4 := start_lt (packCommand op size start)
  generalize CommandWord.op (packCommand op size start) = op' at *
  generalize CommandWord.rsv (packCommand op size start) = rsv' at *
  generalize CommandWord.size (packCommand op size start) = size' at *
  generalize CommandWord.start (packCommand op size start) = start' at *
  refine ⟨?_, ?_, ?_, ?_⟩ <;> omega

/-- Two words are equal when their four fields are. -/
theorem word_eq_iff_fields (w v : CommandWord) : w = v ↔
    CommandWord.op w = CommandWord.op v ∧ CommandWord.rsv w = CommandWord.rsv v ∧
    CommandWord.size w = CommandWord.size v ∧ CommandWord.start w = CommandWord.start v := by
  constructor
  · rintro rfl; exact ⟨rfl, rfl, rfl, rfl⟩
  · rintro ⟨h1, h2, h3, h4⟩
    apply BitVec.eq_of_toNat_eq
    rw [word_toNat_eq_fields w, word_toNat_eq_fields v, h1, h2, h3, h4]

theorem fields_and (w m : CommandWord) :
    CommandWord.op (w &&& m) = CommandWord.op w &&& CommandWord.op m ∧
    CommandWord.rsv (w &&& m) = CommandWord.rsv w &&& CommandWord.rsv m ∧
    CommandWord.size (w &&& m) = CommandWord.size w &&& CommandWord.size m ∧
    CommandWord.start (w &&& m) = CommandWord.start w &&& CommandWord.start m := by
  simp [CommandWord.op, CommandWord.rsv, CommandWord.size, CommandWord.start, BitVec.extractLsb'_and]

theorem and_byte_ones (n : Nat) (h : n < 256) : n &&& 255 = n := by
  rw [show 255 = 2 ^ 8 - 1 by norm_num, Nat.and_two_pow_sub_one_eq_mod, Nat.mod_eq_of_lt h]

/-- A table row's match, read on the fields: a mask of whole bytes fixes those bytes (R49). -/
theorem matches_iff (w : CommandWord) :
    (w &&& 0xFFFF00FF = 0x01000000 ↔ CommandWord.op w = 1 ∧ CommandWord.rsv w = 0 ∧ CommandWord.start w = 0) ∧
    (w &&& 0xFFFF0000 = 0x02000000 ↔ CommandWord.op w = 2 ∧ CommandWord.rsv w = 0) ∧
    (w &&& 0xFFFF0000 = 0x03000000 ↔ CommandWord.op w = 3 ∧ CommandWord.rsv w = 0) ∧
    (w &&& 0xFFFFFFFF = 0x04000000 ↔
      CommandWord.op w = 4 ∧ CommandWord.rsv w = 0 ∧ CommandWord.size w = 0 ∧ CommandWord.start w = 0) ∧
    (w &&& 0xFFFFFFFF = 0x05000000 ↔
      CommandWord.op w = 5 ∧ CommandWord.rsv w = 0 ∧ CommandWord.size w = 0 ∧ CommandWord.start w = 0) := by
  have h1 := and_byte_ones _ (op_lt w)
  have h2 := and_byte_ones _ (rsv_lt w)
  have h3 := and_byte_ones _ (size_lt w)
  have h4 := and_byte_ones _ (start_lt w)
  have row : ∀ m c : CommandWord, w &&& m = c ↔
      CommandWord.op w &&& CommandWord.op m = CommandWord.op c ∧
      CommandWord.rsv w &&& CommandWord.rsv m = CommandWord.rsv c ∧
      CommandWord.size w &&& CommandWord.size m = CommandWord.size c ∧
      CommandWord.start w &&& CommandWord.start m = CommandWord.start c := by
    intro m c
    obtain ⟨e1, e2, e3, e4⟩ := fields_and w m
    rw [word_eq_iff_fields, e1, e2, e3, e4]
  generalize CommandWord.op w = op at *
  generalize CommandWord.rsv w = rsv at *
  generalize CommandWord.size w = size at *
  generalize CommandWord.start w = start at *
  refine ⟨(row _ _).trans ?_, (row _ _).trans ?_, (row _ _).trans ?_, (row _ _).trans ?_, (row _ _).trans ?_⟩
  · change op &&& 255 = 1 ∧ rsv &&& 255 = 0 ∧ size &&& 0 = 0 ∧ start &&& 255 = 0 ↔ _
    simp [h1, h2, h4]
  · change op &&& 255 = 2 ∧ rsv &&& 255 = 0 ∧ size &&& 0 = 0 ∧ start &&& 0 = 0 ↔ _
    simp [h1, h2]
  · change op &&& 255 = 3 ∧ rsv &&& 255 = 0 ∧ size &&& 0 = 0 ∧ start &&& 0 = 0 ↔ _
    simp [h1, h2]
  · change op &&& 255 = 4 ∧ rsv &&& 255 = 0 ∧ size &&& 255 = 0 ∧ start &&& 255 = 0 ↔ _
    simp [h1, h2, h3, h4]
  · change op &&& 255 = 5 ∧ rsv &&& 255 = 0 ∧ size &&& 255 = 0 ∧ start &&& 255 = 0 ↔ _
    simp [h1, h2, h3, h4]
end Sys2Proof
end

