-- ==== Sys2Proof/Laws/Geopoint.lean ====
section
/-! SUPPORT. The record layout: its fields are in bounds, disjoint and cover the record; what each field of an encoded
record holds; a record is determined by its fields. -/

namespace Sys2Proof.Machine

open Sys2Proof

theorem layoutField_inBounds (f : LayoutField) : f.offset + f.width ≤ 64 := by
  cases f <;> decide

theorem layoutField_width_le (f : LayoutField) : f.width ≤ 12 := by
  cases f <;> decide

theorem mem_layout (f : LayoutField) : f ∈ layout := by
  cases f <;> decide

theorem layoutField_disjoint (f g : LayoutField) (h : f ≠ g) :
    f.offset + f.width ≤ g.offset ∨ g.offset + g.width ≤ f.offset := by
  revert h; cases f <;> cases g <;> decide

/-- Every bit index lies in a layout field (R84). -/
theorem layoutField_covers (k : Nat) (hk : k < 64) : ∃ f : LayoutField, f.offset ≤ k ∧ k < f.offset + f.width := by
  have table : ∀ j : Fin 64, ∃ f ∈ layout, f.offset ≤ j.val ∧ j.val < f.offset + f.width := by decide
  obtain ⟨f, _, hf⟩ := table ⟨k, hk⟩
  exact ⟨f, hf⟩

theorem fieldAt_eq_some (k : Nat) (f : LayoutField) : fieldAt k = some f → f.contains k = true :=
  List.find?_some (p := fun g : LayoutField => g.contains k)

/-- A run's place in its byte and its place in the field's value agree with the field's offset and width (R83, R84). -/
theorem byteRun_place (j : Nat) (r : ByteRun) (h : r ∈ byteRuns j) :
    r.field.offset ≤ 8 * j + r.low ∧ 8 * j + r.low + r.length + r.valueLow = r.field.offset + r.field.width := by
  have table : ∀ i : Fin 8, ∀ q ∈ byteRuns i.val, q.field.offset ≤ 8 * i.val + q.low ∧
      8 * i.val + q.low + q.length + q.valueLow = q.field.offset + q.field.width := by decide
  by_cases hj : j < 8
  · exact table ⟨j, hj⟩ r h
  · match j, hj, h with
    | _ + 8, _, h => cases h

/-- Each bit of each byte lies in a run, and in only one (R84). -/
theorem byteRuns_partition (j m : Nat) (hj : j < 8) (hm : m < 8) :
    ∃ r, (byteRuns j).filter (fun r => r.contains m) = [r] := by
  have table : ∀ i n : Fin 8, ∃ r ∈ byteRuns i.val, (byteRuns i.val).filter (fun r => r.contains n.val) = [r] := by
    decide
  obtain ⟨r, _, hr⟩ := table ⟨j, hj⟩ ⟨m, hm⟩
  exact ⟨r, hr⟩

theorem recordField_lt (B : Word) (f : LayoutField) : recordField B f < 2 ^ f.width := fieldValue_lt _ _ _

/-- A record is determined by its ten fields (R82, R84). -/
theorem eq_of_recordField_eq (B C : Word) (h : ∀ f, recordField B f = recordField C f) : B = C := by
  apply BitVec.eq_of_getLsbD_eq
  intro k hk
  obtain ⟨f, h1, h2⟩ := layoutField_covers k hk
  have hb := congrArg (fun x => x.testBit (f.offset + f.width - 1 - k)) (h f)
  simp only [recordField, testBit_fieldValue] at hb
  have h3 : f.offset + f.width - 1 - (f.offset + f.width - 1 - k) = k := by omega
  have h4 : f.offset + f.width - 1 - k < f.width := by omega
  simpa [h3, h4] using hb

theorem recordField_depositRow_same (p : GeoPoint) (B : Word) (f : LayoutField) :
    recordField (depositRow p B f) f = (widen (encodeInput p f)).toNat % 2 ^ f.width :=
  fieldValue_depositField _ _ _ _ (layoutField_inBounds f)

theorem recordField_depositRow_other (p : GeoPoint) (B : Word) (f g : LayoutField) (h : g ≠ f) :
    recordField (depositRow p B f) g = recordField B g := by
  apply fieldValue_congr
  intro k h1 h2
  unfold depositRow
  rw [getLsbD_depositField _ _ _ _ _ (layoutField_inBounds f), if_neg]
  have := layoutField_disjoint g f h
  omega

/-- Rows written in any order: a field written holds its value cut to its width, another field is unchanged. -/
theorem recordField_foldl (p : GeoPoint) (g : LayoutField) :
    ∀ (l : List LayoutField) (B : Word), recordField (l.foldl (depositRow p) B) g =
      if g ∈ l then (widen (encodeInput p g)).toNat % 2 ^ g.width else recordField B g
  | [], _ => by simp
  | f :: l, B => by
    rw [List.foldl_cons, recordField_foldl p g l]
    by_cases hl : g ∈ l
    · simp [hl]
    · by_cases hg : g = f
      · subst hg; simp [hl, recordField_depositRow_same]
      · simp [hl, hg, recordField_depositRow_other p B f g hg]

/-- What each field of an encoded record holds (R85, R87). -/
theorem recordField_encodePoint (p : GeoPoint) (f : LayoutField) :
    recordField (encodePoint p) f = (widen (encodeInput p f)).toNat % 2 ^ f.width := by
  rw [encodePoint, recordField_foldl, if_pos (mem_layout f)]

theorem widen_toNat_mod (z : Int) (n : Nat) (hn : n ≤ 64) :
    (widen z).toNat % 2 ^ n = (z % 2 ^ n).toNat := by
  have hd : (2 ^ n : Int) ∣ 2 ^ 64 := pow_dvd_pow _ hn
  have h0 : (0 : Int) ≤ z % 2 ^ 64 := Int.emod_nonneg _ (by norm_num)
  have h1 : (0 : Int) ≤ z % 2 ^ n := Int.emod_nonneg _ (by positivity)
  have hw : ((widen z).toNat : Int) = z % 2 ^ 64 := by
    simp only [widen, BitVec.toNat_ofInt]
    omega
  have : (((widen z).toNat % 2 ^ n : Nat) : Int) = z % 2 ^ n := by
    push_cast
    rw [hw, Int.emod_emod_of_dvd _ hd]
  omega

end Sys2Proof.Machine
end

