-- ==== Sys2Proof/Laws/PerInstr.lean ====
section
/-! SUPPORT. Facts about every command as syntax, one lemma per constructor. -/

namespace Sys2Proof.Laws

open Sys2Proof

/-- The row of the opcode table a command belongs to: mask and match (R49). -/
def rowOf : Instr → Nat × Nat
  | .mask _ => (0xFFFF00FF, 0x01000000)
  | .rdf _ _ => (0xFFFF0000, 0x02000000)
  | .wrf _ _ => (0xFFFF0000, 0x03000000)
  | .enc => (0xFFFFFFFF, 0x04000000)
  | .dec => (0xFFFFFFFF, 0x05000000)

/-- The word of a well-formed command matches its own row of the opcode table (R49). -/
def MatchesRow.Statement (i : Instr) : Prop :=
  i.wellFormed = true → encode i &&& BitVec.ofNat 32 (rowOf i).1 = BitVec.ofNat 32 (rowOf i).2

/-- A packed word as its two halves. -/
theorem packCommand_eq_append (op n b : Nat) (hn : n < 256) (hb : b < 256) :
    packCommand op n b = BitVec.ofNat 16 (op * 2 ^ 8) ++ BitVec.ofNat 16 (n * 2 ^ 8 + b) := by
  apply BitVec.eq_of_toNat_eq
  simp only [packCommand, BitVec.toNat_append, BitVec.toNat_ofNat]
  rw [← Nat.shiftLeft_add_eq_or_of_lt (by omega), Nat.shiftLeft_eq]
  omega

/-- A table mask, like a word, works on the two halves apart. -/
theorem append_and (a c : BitVec 16) (b d : BitVec 16) : (a ++ b) &&& (c ++ d) = (a &&& c) ++ (b &&& d) := by
  apply BitVec.eq_of_getLsbD_eq
  intro i hi
  simp only [BitVec.getLsbD_and, BitVec.getLsbD_append]
  split <;> rfl

theorem pack_size_fixed (n : Nat) (hn : n < 256) : packCommand 1 n 0 &&& 0xFFFF00FF#32 = 0x01000000#32 := by
  rw [packCommand_eq_append 1 n 0 hn (by omega), show 0xFFFF00FF#32 = 0xFFFF#16 ++ 0x00FF#16 by decide, append_and]
  have h : BitVec.ofNat 16 (n * 2 ^ 8 + 0) &&& 0x00FF#16 = 0#16 := by
    apply BitVec.eq_of_toNat_eq
    simp only [BitVec.toNat_and, BitVec.toNat_ofNat]
    rw [show (0xFF % 2 ^ 16 : Nat) = 2 ^ 8 - 1 by norm_num, Nat.and_two_pow_sub_one_eq_mod]
    omega
  rw [h]; decide

theorem pack_high_fixed (op n b : Nat) (hn : n < 256) (hb : b < 256) :
    packCommand op n b &&& 0xFFFF0000#32 = BitVec.ofNat 16 (op * 2 ^ 8) ++ 0#16 := by
  rw [packCommand_eq_append op n b hn hb, show 0xFFFF0000#32 = BitVec.allOnes 16 ++ 0#16 by decide, append_and,
    BitVec.and_allOnes, BitVec.and_zero]

theorem MatchesRow.mask (size : Nat) : MatchesRow.Statement (.mask size) := fun h =>
  pack_size_fixed size (by simpa [Instr.wellFormed] using h)

theorem MatchesRow.rdf (start size : Nat) : MatchesRow.Statement (.rdf start size) := fun h => by
  simp only [Instr.wellFormed, Bool.and_eq_true, decide_eq_true_eq] at h
  exact (pack_high_fixed 2 size start h.2 h.1).trans (by simp only [rowOf]; decide)

theorem MatchesRow.wrf (start size : Nat) : MatchesRow.Statement (.wrf start size) := fun h => by
  simp only [Instr.wellFormed, Bool.and_eq_true, decide_eq_true_eq] at h
  exact (pack_high_fixed 3 size start h.2 h.1).trans (by simp only [rowOf]; decide)

theorem MatchesRow.enc : MatchesRow.Statement .enc := fun _ => by decide

theorem MatchesRow.dec : MatchesRow.Statement .dec := fun _ => by decide

end Sys2Proof.Laws
end

