-- ==== Sys2Proof/Laws/Safety.lean ====
section
/-! SUPPORT. Runs of host actions and their replies, one action at a time. -/

namespace Sys2Proof.Safety

open Sys2Proof Sys2Proof.Machine

@[simp] theorem allOk_nil : AllOk [] := by simp [AllOk]

@[simp] theorem allOk_cons (r : Reply) (replies : List Reply) :
    AllOk (r :: replies) ↔ (r.response = none ∨ r.response = some Response.ok) ∧ AllOk replies := by
  simp [AllOk]

@[simp] theorem runActions_nil (s : State) : runActions [] s = some (s, []) := rfl

/-- A run's first action, when it has a next state, then the rest from there. -/
theorem runActions_cons {a : Action} {rest : List Action} {s t : State} (h : perform a s = .next t) :
    runActions (a :: rest) s = (runActions rest t).map fun (u, replies) => (u, t.reply :: replies) := by
  simp [runActions, h]

end Sys2Proof.Safety
end

