-- ==== Sys2Proof/Tests/Slice0.lean ====
section
/-! SUPPORT. Tests: expected values are the spec's own (30_encoding.md and 95_test_vectors.md, named in each comment), and
witnesses that the statements' hypotheses can be met. -/

namespace Sys2Proof.Tests

open Sys2Proof Sys2Proof.Machine Sys2Proof.Safety

/-- The state a step leads to, when it leads to one. -/
def after : Host.Outcome State Fault Refusal → Option State
  | .next s => some s
  | .fault _ => none
  | .refused _ => none

/-- The launch state with a given BUF and VAL. -/
def loaded (buf val : Word) : State := { State.reset with buf := buf, val := val }

/-- The launch state with the point of the source's scenario A11. -/
def scenario : State :=
  { State.reset with
    lon := 100, lonmin := 20, lonsec := 12, lonms := 211
    lat := 0xFFFFFFFFFFFFFFA6, latmin := 20, latsec := 12, latms := 211 }

/-- The record of the scenario (A11). -/
def scenarioRecord : Word := 0xCB0614B59606144D

/-- A faulted unit. -/
def halted : State := raise .outOfBounds State.reset

/-! ## Well-formedness (R46, R53) -/

theorem test_wellFormed_refuses_mask_256 : (Instr.mask 256).wellFormed = false := by decide
theorem test_wellFormed_refuses_rdf_begin_256 : (Instr.rdf 256 0).wellFormed = false := by decide
theorem test_wellFormed_refuses_rdf_size_256 : (Instr.rdf 0 256).wellFormed = false := by decide
theorem test_wellFormed_refuses_wrf_begin_256 : (Instr.wrf 256 0).wellFormed = false := by decide
theorem test_wellFormed_refuses_wrf_size_256 : (Instr.wrf 0 256).wellFormed = false := by decide
theorem test_wellFormed_keeps_out_of_bounds : (Instr.rdf 255 255).wellFormed = true := by decide

/-! ## Decoding, words written out from R46 and R47: op, rsv, size, begin -/

theorem test_decode_mask : decode 0b00000001000000000000110000000000#32 = .ok (.mask 12) := by decide
theorem test_decode_rdf : decode 0b00000010000000000000110000010101#32 = .ok (.rdf 21 12) := by decide
theorem test_decode_wrf : decode 0b00000011000000000000100000111100#32 = .ok (.wrf 60 8) := by decide
theorem test_decode_enc : decode 0b00000100000000000000000000000000#32 = .ok .enc := by decide
theorem test_decode_dec : decode 0b00000101000000000000000000000000#32 = .ok .dec := by decide
/-- B5.1, B5.2, B5.3. -/
theorem test_decode_unknown_op : decode 0 = .error (.unknownOpcode 0) ∧ decode 0x06000000 = .error (.unknownOpcode 6) ∧
    decode 0xFFFFFFFF = .error (.reservedNotZero 255) := by decide
/-- B1.13, B5.4, B5.5. -/
theorem test_decode_unused_operand : decode 0x01000801 = .error .unusedOperandNotZero ∧
    decode 0x04000100 = .error .unusedOperandNotZero ∧ decode 0x05000001 = .error .unusedOperandNotZero := by decide
/-- B5.8: an out-of-bounds RDF with a reserved bit is illegal. -/
theorem test_decode_reserved : decode 0x02014141 = .error (.reservedNotZero 1) := by decide
/-- B1.7, B2.5, B3.19. -/
theorem test_encode_words : encode (.mask 12) = 0x01000C00 ∧ encode (.rdf 21 12) = 0x02000C15 ∧
    encode (.wrf 60 8) = 0x0300083C := by decide
theorem test_decodeTableWord : decodeTableWord 32 0x02004000 = some (.rdf 0 64) ∧
    decodeTableWord 32 0x06000000 = none := by decide

/-! ## Fields (95_test_vectors.md, A1 to A3 and the mixed widths of B2) -/

/-- A1: bit index 8 is the least significant bit of byte 1. -/
theorem test_bit_index_8 : bufByte 0x100 1 = 1 ∧ bufByte 0x100 0 = 0 := by decide
/-- A2. -/
theorem test_first_bit_is_most_significant : readField 1 0 8 = some 128 ∧ readField 0x80 0 8 = some 1 := by decide
/-- A3. -/
theorem test_write_is_most_significant_first :
    writeField 0 0 8 1 = some 0x80 ∧ writeField 0 0 8 128 = some 1 := by decide
/-- Mixed widths after B2. -/
theorem test_mixed_widths : readField 0xA50000 16 4 = some 10 ∧ readField 0xA50000 20 4 = some 5 ∧
    readField 0xA50000 18 4 = some 9 := by decide
/-- D9: a negative value is widened in two's complement. -/
theorem test_negative_value : writeField 0 9 6 (-1) = some 0x7E00 := by decide

/-! ## One step per command -/

/-- B1.10: MASK 64 is not computed as 1 shifted by 64, minus 1. -/
theorem test_mask_64 : (after (exec (.mask 64) State.reset)).map (·.res) = some 0xFFFFFFFFFFFFFFFF := by decide
/-- B1.11. -/
theorem test_mask_65 : (after (exec (.mask 65) State.reset)).map (fun t => (t.res, t.status, t.reply)) =
    some (0, 3, .answer .outOfBounds) := by decide
/-- B2.12. -/
theorem test_rdf_whole_buffer :
    (after (exec (.rdf 0 64) (loaded scenarioRecord 0))).map (·.res) = some 0xB2286069AD2860D3 := by decide
/-- B2.22: the sum does not wrap. -/
theorem test_rdf_no_wrap : (after (exec (.rdf 200 100) (loaded scenarioRecord 0))).map (·.reply) =
    some (.answer .outOfBounds) := by decide
/-- B3.16. -/
theorem test_wrf_replaces_field : (after (exec (.wrf 21 12) (loaded scenarioRecord 3000))).map (·.buf) =
    some 0xCB0614B43BA6144D := by decide
/-- B3.19: nothing is written, not even the four bits that fit. -/
theorem test_wrf_not_partial : (after (exec (.wrf 60 8) (loaded 0 0xFF))).map (fun t => (t.buf, t.status)) =
    some (0, 3) := by decide
/-- B4.4. -/
theorem test_enc_scenario : (after (exec .enc scenario)).map (·.buf) = some scenarioRecord := by decide
/-- B4.15: the most negative coordinates. -/
theorem test_enc_most_negative :
    (after (exec .enc { State.reset with lon := 0x8000000000000000, lat := 0x8000000000000000 })).map (·.buf) =
      some 0 := by decide
/-- B4.27. -/
theorem test_dec_point : (after (exec .dec (loaded 0x0123456789ABCDEF 0))).map pointOf =
    some ⟨77, ⟨17, 24, 1152⟩, 239, ⟨25, 58, 2851⟩⟩ := by decide
/-- B4.25: a negative longitude is sign-extended. -/
theorem test_dec_sign_extends : (after (exec .dec (loaded 0x00000001FFFFFFFE 0))).map (fun t => (t.lon, t.lat)) =
    some (0xFFFFFFFFFFFFFF01, 0) := by decide
/-- B4.20: every component truncated. -/
theorem test_encode_truncates : encodePoint ⟨200, ⟨64, 65, 2049⟩, 300, ⟨127, 128, 4097⟩⟩ = 0x8010002700007E69 := by
  decide

/-! ## Host actions -/

/-- B5.9, B5.10, B5.11. -/
theorem test_illegal_access : (hostWrite 2 0 State.reset).statusWord = 7 ∧ (hostWrite 11 0 State.reset).statusWord = 7 ∧
    (hostRead 12 State.reset).statusWord = 7 := by decide
/-- B5.13. -/
theorem test_write_then_read :
    (hostRead 0 (hostWrite 0 0x1122334455667788 State.reset)).reply = .value 0x1122334455667788 := by decide
/-- P3: a faulted unit refuses an in-bounds WRF and a write, and still reads. -/
theorem test_halted_unit : (after (issue 0x0300043C halted)).map (·.reply) = some (.answer .refused) ∧
    (hostWrite 1 0 halted).reply = .answer .refused ∧ (hostRead 11 halted).reply = .value 3 := by decide
/-- B5.1. -/
theorem test_illegal_word :
    (after (step (State.reset.withFetchWord 32 0))).map (fun t => (t.statusWord, t.reply)) =
      some (5, .answer .illegalCommand) := by decide
/-- The next step runs the word that withFetchWord places. -/
theorem test_withFetchWord : (after (step (State.reset.withFetchWord 32 0x01000C00))).map (·.res) = some 0xFFF := by
  decide
/-- P1's first two lines, RESET and a SET: Reset's missing response is no response other than OK (R51, R108). -/
theorem test_reset_is_no_bad_response :
    (runActions [.reset, .hostWrite 0 0] halted).map (fun r => (r.2, decide (AllOk r.2), r.1.faulted)) =
      some ([.silent, .answer .ok], true, false) := by decide
/-- P3: an OUT_OF_BOUNDS response stays a response other than OK after a Reset. -/
theorem test_fault_before_reset_counts :
    (runActions [.issue 0x0300083C, .reset] State.reset).map (fun r => (decide (AllOk r.2), r.1.faulted)) =
      some (false, false) := by decide
theorem test_assemble : assembleLine "RDF 1, 0x08 ; a comment".toList = .ok (some (.rdf 1 8)) ∧
    assembleLine "WRF 256, 1".toList = .error .outOfRange ∧ assembleLine "RDF 255, 255".toList = .ok (some (.rdf 255 255)) ∧
    assembleLine "  ; nothing".toList = .ok none := by decide
theorem test_script : scriptLine "SET LAT, -90".toList = .ok (some (.hostWrite 7 0xFFFFFFFFFFFFFFA6)) ∧
    scriptLine "GET STATUS".toList = .ok (some (.hostRead 11)) ∧ scriptLine "RESET".toList = .ok (some .reset) ∧
    scriptLine "ENC".toList = .ok (some (.issue 0x04000000)) := by decide
theorem test_bufCells_wf : Memory.wf (bufCells State.reset.buf) = true := by decide

/-! ## Witnesses: the hypotheses of each statement are met, at the ends of their ranges -/

theorem test_witness_DecodeOfEncode : (Instr.rdf 255 255).wellFormed = true ∧ (Instr.mask 0).wellFormed = true := by
  decide
theorem test_witness_EncodeOfDecode : decode 0x0200FFFF = .ok (.rdf 255 255) := by decide
theorem test_witness_DecodeMatchesOpcodeTable_rows :
    (0x0100FF00 : CommandWord) &&& 0xFFFF00FF = 0x01000000 ∧ (0x0200FFFF : CommandWord) &&& 0xFFFF0000 = 0x02000000 ∧
    (0x0300FFFF : CommandWord) &&& 0xFFFF0000 = 0x03000000 ∧ (0x04000000 : CommandWord) &&& 0xFFFFFFFF = 0x04000000 ∧
    (0x05000000 : CommandWord) &&& 0xFFFFFFFF = 0x05000000 := by decide
theorem test_witness_DecodeMatchesOpcodeTable_no_row :
    (0x01000001 : CommandWord) &&& 0xFFFF00FF ≠ 0x01000000 ∧ (0x01000001 : CommandWord) &&& 0xFFFF0000 ≠ 0x02000000 ∧
    (0x01000001 : CommandWord) &&& 0xFFFF0000 ≠ 0x03000000 ∧ (0x01000001 : CommandWord) &&& 0xFFFFFFFF ≠ 0x04000000 ∧
    (0x01000001 : CommandWord) &&& 0xFFFFFFFF ≠ 0x05000000 := by decide
theorem test_witness_DecodeMatchesOpcodeTable_faults : State.reset.faulted = false ∧
    decode 0x06000000 = .error (.unknownOpcode 6) ∧ (decode 0x02000041 = .ok (.rdf 65 0) ∧ 64 < 65 + 0) ∧
    (decode 0x03000140 = .ok (.wrf 64 1) ∧ 64 < 64 + 1) ∧ (decode 0x01004100 = .ok (.mask 65) ∧ 64 < 65) := by decide
theorem test_witness_AssembledLinesAreWellFormed : assembleLine "MASK 255".toList = .ok (some (.mask 255)) := by decide
theorem test_witness_StepPerformsNextAction : (State.reset.withFetchWord 32 0).pending = [.issue 0] := by decide
theorem test_witness_StepRunsDecodedCommand :
    (State.reset.withFetchWord 32 0x0200FFFF).pending = [.issue 0x0200FFFF] ∧
    (State.reset.withFetchWord 32 0x0200FFFF).faulted = false ∧ decode 0x0200FFFF = .ok (.rdf 255 255) := by decide
theorem test_witness_StepWithoutActionHolds : State.reset.pending = [] := by decide
theorem test_witness_IssueFollowsItsTests : halted.faulted = true ∧ State.reset.faulted = false ∧
    decode 0x05000001 = .error .unusedOperandNotZero ∧ decode 0x01000000 = .ok (.mask 0) ∧
    (State.reset.withFetchWord 32 0x01000000).pending = [.issue 0x01000000] := by decide
theorem test_witness_HostWriteByNumber : halted.faulted = true ∧ State.reset.faulted = false ∧
    (15 : Fin 16) ∈ ([2, 11, 12, 13, 14, 15] : List (Fin 16)) := by decide
theorem test_witness_HostReadByNumber : halted.faulted = true ∧ State.reset.faulted = false ∧ 12 ≤ (12 : Fin 16).val ∧
    12 ≤ (15 : Fin 16).val := by decide
theorem test_witness_WritingOneRegisterChangesNoOther :
    (perform (.hostWrite 10 1) State.reset = .next (hostWrite 10 1 State.reset) ∧
      (hostWrite 10 1 State.reset).reply = .answer .ok) ∧
    ((11 : Fin 16) ≠ 10 ∧ perform (.hostRead 11) State.reset = .next (hostRead 11 State.reset) ∧
      perform (.hostRead 11) (hostWrite 10 1 State.reset) = .next (hostRead 11 (hostWrite 10 1 State.reset))) :=
  ⟨⟨rfl, by decide⟩, by decide, rfl, rfl⟩
theorem test_witness_ResetActionRedraws : halted.draws = State.reset.draws ∧
    perform .reset halted = .next (resetUnit halted) ∧ perform .reset State.reset = .next (resetUnit State.reset) :=
  ⟨rfl, rfl, rfl⟩
theorem test_witness_LaunchStateIsReady (d : ResetData) :
    perform (.hostRead 15) (State.launch d) = .next (hostRead 15 (State.launch d)) := rfl
theorem test_witness_FaultEntryRecordsAndKeeps : halted.faulted = true ∧ Action.hostRead 15 ≠ .reset ∧
    perform (.hostRead 15) halted = .next (hostRead 15 halted) := ⟨by decide, by decide, rfl⟩
theorem test_witness_FaultPriority_faulted : Action.hostRead 11 ≠ .reset ∧
    perform (.hostRead 11) halted = .next (hostRead 11 halted) ∧ halted.faulted = true := ⟨by decide, rfl, by decide⟩
theorem test_witness_FaultPriority_ready : Action.hostWrite 11 0 ≠ .reset ∧
    perform (.hostWrite 11 0) State.reset = .next (hostWrite 11 0 State.reset) ∧ State.reset.faulted = false :=
  ⟨by decide, rfl, by decide⟩
theorem test_witness_FaultPriority_outOfBounds : perform (.issue 0x02000140) State.reset = .next halted ∧
    halted.reply.response = some .outOfBounds := ⟨rfl, by decide⟩
theorem test_witness_FaultPriority_reserved : State.reset.faulted = false ∧ (0x02014141 : CommandWord).toNat / 2 ^ 24 = 2 ∧
    (0x02014141 : CommandWord).toNat / 2 ^ 16 % 2 ^ 8 ≠ 0 := by decide
theorem test_witness_ResponseCodes_reset : perform .reset State.reset = .next (resetUnit State.reset) := rfl
theorem test_witness_ResponseCodes_ok : Action.hostRead 0 ≠ .reset ∧
    perform (.hostRead 0) State.reset = .next (hostRead 0 State.reset) ∧
    (hostRead 0 State.reset).reply.response.map Response.code = some 0 := ⟨by decide, rfl, by decide⟩
theorem test_witness_ResponseCodes_fault : Action.hostRead 12 ≠ .reset ∧
    perform (.hostRead 12) State.reset = .next (hostRead 12 State.reset) ∧
    (hostRead 12 State.reset).reply.response.map Response.code = some 3 := ⟨by decide, rfl, by decide⟩
theorem test_witness_ResponseCodes_refused : Action.hostWrite 0 0 ≠ .reset ∧
    perform (.hostWrite 0 0) halted = .next (hostWrite 0 0 halted) ∧
    (hostWrite 0 0 halted).reply.response.map Response.code = some 4 := ⟨by decide, rfl, by decide⟩
theorem test_witness_NothingPartial : Action.hostWrite 0 0 ≠ .reset ∧
    perform (.hostWrite 0 0) halted = .next (hostWrite 0 0 halted) ∧
    (hostWrite 0 0 halted).reply.response ≠ some .ok ∧ (hostWrite 0 0 halted).reply = .answer .refused :=
  ⟨by decide, rfl, by decide, by decide⟩
theorem test_witness_FaultedUntilReset_other : halted.faulted = true ∧ step halted = .next halted ∧
    ∀ rest, halted.pending ≠ .reset :: rest := ⟨by decide, rfl, by simp [halted, State.reset]⟩
theorem test_witness_FaultedUntilReset_reset :
    step { halted with pending := [.reset] } = .next (resetUnit { halted with pending := [] }) := rfl
theorem test_witness_StepKeepsStatusInv : StatusInv (State.reset.withFetchWord 32 0x02000140) ∧
    step (State.reset.withFetchWord 32 0x02000140) = .next halted := ⟨by decide, rfl⟩
theorem test_witness_StatusInvAtReset : perform .reset halted = .next (resetUnit halted) := rfl
theorem test_witness_StatusChangesOnlyByFaultAndReset : step (State.reset.withFetchWord 32 0x02000140) = .next halted ∧
    halted.status ≠ (State.reset.withFetchWord 32 0x02000140).status := ⟨rfl, by decide⟩
theorem test_witness_AllOkIffNotFaulted : State.reset.faulted = false ∧
    ∀ a ∈ [Action.issue 0x02000140, .hostRead 0], a ≠ .reset := by decide
theorem test_witness_AllOkIffNotFaulted_empty_program : ∀ a ∈ ([] : List Action), a ≠ .reset := by decide
theorem test_witness_AssemblerChecksOperandsOnly_mask : tokens [] "MASK 256".toList = [['M', 'A', 'S', 'K'], ['2', '5', '6']] ∧
    parseNumber ['2', '5', '6'] = some 256 ∧ tokens [] "MASK 255".toList = [['M', 'A', 'S', 'K'], ['2', '5', '5']] ∧
    parseNumber ['2', '5', '5'] = some 255 ∧ 256 ≤ 256 ∧ 255 < 256 := by decide
theorem test_witness_AssemblerChecksOperandsOnly_rdf :
    tokens [] "RDF 255, 256".toList = [['R', 'D', 'F'], ['2', '5', '5'], [','], ['2', '5', '6']] ∧
    tokens [] "RDF 255, 0xFF".toList = [['R', 'D', 'F'], ['2', '5', '5'], [','], ['0', 'x', 'F', 'F']] ∧
    parseNumber ['0', 'x', 'F', 'F'] = some 255 ∧ (256 ≤ 255 ∨ 256 ≤ 256) := by decide
theorem test_witness_AssemblerChecksOperandsOnly_wrf :
    tokens [] "WRF 256, 0".toList = [['W', 'R', 'F'], ['2', '5', '6'], [','], ['0']] ∧
    tokens [] "WRF 0, 0".toList = [['W', 'R', 'F'], ['0'], [','], ['0']] ∧
    parseNumber ['0'] = some 0 ∧ (256 ≤ 256 ∨ 256 ≤ 0) := by decide
theorem test_witness_OnlyNamedWritersChangeRegisters_buf :
    ∃ t, step { State.reset with pending := [.hostWrite 0 1] } = .next t ∧ t.buf ≠ State.reset.buf := ⟨_, rfl, by decide⟩
theorem test_witness_OnlyNamedWritersChangeRegisters_val :
    ∃ t, step { State.reset with pending := [.hostWrite 1 1] } = .next t ∧ t.val ≠ State.reset.val := ⟨_, rfl, by decide⟩
theorem test_witness_OnlyNamedWritersChangeRegisters_res :
    ∃ t, step { State.reset with pending := [.issue 0x01000100] } = .next t ∧ t.res ≠ State.reset.res :=
  ⟨_, rfl, by decide⟩
theorem test_witness_OnlyNamedWritersChangeRegisters_point :
    ∃ t, step { State.reset with pending := [.hostWrite 10 1] } = .next t ∧ ¬SamePoint State.reset t :=
  ⟨_, rfl, by decide⟩
theorem test_witness_CommandsReadOnlyTheirSources_mask : ∃ t t', exec (.mask 64) State.reset = .next t ∧
    exec (.mask 64) halted = .next t' ∧ t.reply = .answer .ok := ⟨_, _, rfl, rfl, by decide⟩
theorem test_witness_CommandsReadOnlyTheirSources_rdf : State.reset.buf = halted.buf ∧ ∃ t t',
    exec (.rdf 0 64) State.reset = .next t ∧ exec (.rdf 0 64) halted = .next t' ∧ t.reply = .answer .ok :=
  ⟨rfl, _, _, rfl, rfl, by decide⟩
theorem test_witness_CommandsReadOnlyTheirSources_wrf : State.reset.buf = halted.buf ∧ State.reset.val = halted.val ∧
    ∃ t t', exec (.wrf 0 64) State.reset = .next t ∧ exec (.wrf 0 64) halted = .next t' := ⟨rfl, rfl, _, _, rfl, rfl⟩
theorem test_witness_CommandsReadOnlyTheirSources_enc : SamePoint State.reset (loaded 5 6) ∧
    ∃ t t', exec .enc State.reset = .next t ∧ exec .enc (loaded 5 6) = .next t' := ⟨by decide, _, _, rfl, rfl⟩
theorem test_witness_CommandsReadOnlyTheirSources_dec : State.reset.buf = scenario.buf ∧
    ∃ t t', exec .dec State.reset = .next t ∧ exec .dec scenario = .next t' := ⟨rfl, _, _, rfl, rfl⟩
theorem test_witness_MaskCommand : 64 ≤ 64 ∧ 64 < 65 := by decide
theorem test_witness_RdfCommand : 0 + 64 ≤ 64 ∧ 64 + 0 ≤ 64 ∧ 64 < 65 + 0 := by decide
theorem test_witness_WrfCommand : (53 + 11 ≤ 64 ∧ 10 < 11 ∧ 52 < 53 ∧ 53 + 11 ≤ 64) ∧
    (8 * 5 + 8 ≤ 53 ∧ 16 + 16 ≤ 8 * 4) ∧ (64 < 60 + 8) := by decide
theorem test_witness_ReadAfterWriteOnUnit : 0 + 64 ≤ 64 ∧ 64 + 0 ≤ 64 := by decide
theorem test_witness_RoundTripOnUnit : InRange (pointOf scenario) ∧ ¬LonNegativeZero scenarioRecord ∧
    ¬LatNegativeZero scenarioRecord := by decide
theorem test_witness_ReadFieldIsSum : 63 + 1 ≤ 64 ∧
    ∀ k, 63 ≤ k → k < 63 + 1 → (0 : Word).getLsbD k = (1 : Word).getLsbD k := by
  refine ⟨by decide, fun k h1 h2 => ?_⟩
  have : k = 63 := by omega
  subst this; decide
theorem test_witness_ReadFieldIsReversedSlice : 0 + 64 ≤ 64 ∧ 64 + 0 ≤ 64 := by decide
theorem test_witness_WriteFieldBits : 58 + 6 ≤ 64 ∧ 5 < 6 ∧ 57 < 58 ∧ 58 + 6 ≤ 64 ∧ lowBits 6 70 = lowBits 6 6 := by
  decide
theorem test_witness_WriteFieldInWordArithmetic : 0 + 64 ≤ 64 ∧ 64 + 0 ≤ 64 := by decide
theorem test_witness_FieldsAreMutualInverses : 0 + 64 ≤ 64 ∧ 64 + 0 ≤ 64 := by decide
theorem test_witness_FrameAndOrderOfFields : writeField 0 8 8 0xFF = some 0xFF00 ∧ (16 + 48 ≤ 8 ∨ 8 + 8 ≤ 16) ∧
    writeField 0xFF00 12 8 0 = some 0x0F00 ∧ 7 < 8 := by decide
theorem test_witness_WidthZero : 64 ≤ 64 ∧ 64 < 65 := by decide
theorem test_witness_FieldInsideFieldReadsItsPart : readField 0xA50000 16 8 = some 0xA5 ∧ 4 + 4 ≤ 8 := by decide
theorem test_witness_BufferIsItsEightBytes : 7 < 8 ∧ 63 < 64 := by decide
theorem test_witness_LayoutPartitionsRecord : 63 < 64 ∧ LayoutField.latMillisecond.offset ≤ 63 ∧
    63 < LayoutField.latMillisecond.offset + LayoutField.latMillisecond.width := by decide
theorem test_witness_LayoutFieldsFollowEachOther : layout[8]? = some .latSecond ∧ layout[8 + 1]? = some .latMillisecond ∧
    LayoutField.contains .latMillisecond 63 = true ∧ fieldAt 63 = some .latMillisecond ∧ fieldAt 0 = some .lonSign := by
  decide
/-- R84's words: bit 7 of byte 1 is the first bit of the longitude second, bit 0 of byte 4 the last millisecond bit. -/
theorem test_byte_runs : recordByteBit (recordField 0x8000) 1 7 = true ∧ recordField 0x8000 .lonSecond = 32 ∧
    recordByteBit (recordField 0x100000000) 4 0 = true ∧ recordField 0x100000000 .lonMillisecond = 1 := by decide
theorem test_witness_RecordBytesHoldTheirRuns : 7 < 8 ∧ 0 < 8 := by decide
theorem test_witness_EncodeWritesRowsInAnyOrder (p : GeoPoint) : (encodeRows p).reverse.Perm (encodeRows p) :=
  List.reverse_perm _
theorem test_witness_RoundTripOfPoint : InRange ⟨-127, ⟨63, 63, 2047⟩, -255, ⟨63, 63, 4095⟩⟩ := by decide
theorem test_witness_FieldIndependence : (20 < 21 ∨ 32 < 20) ∧ 8 < 9 ∧ (8 < 9 ∨ 14 < 8) ∧ (14 < 15 ∨ 20 < 14) ∧
    (32 < 33 ∨ 40 < 32) ∧ (40 < 41 ∨ 46 < 40) ∧ (46 < 47 ∨ 52 < 46) ∧ (52 < 53 ∨ 63 < 52) := by decide
theorem test_witness_AssembledOperandBoundary : assembleLine "MASK 256".toList = .error .outOfRange := by decide

end Sys2Proof.Tests
end

section
/-! PROOFS. The buffer as bits, bytes and cells (R5, R6): what each bit and byte of the 64-bit view is, and that the
little-endian sum of the bytes gives the view back. -/

namespace Sys2Proof.Machine

open Sys2Proof

/-! ## Bits and bytes of the view -/

theorem bufBit_eq_div_mod (B : Word) (k : Nat) : bufBit B k = B.toNat / 2 ^ k % 2 := by
  rw [bufBit, BitVec.getLsbD, Nat.toNat_testBit]

theorem toNat_bufByte (B : Word) (j : Nat) : (bufByte B j).toNat = B.toNat / 2 ^ (8 * j) % 256 := by
  rw [bufByte, BitVec.extractLsb'_toNat, Nat.shiftRight_eq_div_pow]

theorem getLsbD_bufByte (B : Word) (j m : Nat) (hm : m < 8) :
    (bufByte B j).getLsbD m = B.getLsbD (8 * j + m) := by
  simp [bufByte, hm]

/-- R5's way to name a bit: index `k` is bit `k mod 8` of byte `k div 8`. -/
theorem getLsbD_eq_bufByte_bit (B : Word) (k : Nat) : B.getLsbD k = (bufByte B (k / 8)).getLsbD (k % 8) := by
  rw [getLsbD_bufByte B _ _ (Nat.mod_lt k (by decide)), Nat.div_add_mod]

/-! ## The little-endian sum -/

/-- The lowest `n` bytes of the view are the view's low `8 * n` bits. -/
theorem sum_bufByte_range (B : Word) (n : Nat) :
    ∑ j ∈ Finset.range n, (bufByte B j).toNat * 2 ^ (8 * j) = B.toNat % 2 ^ (8 * n) := by
  induction n with
  | zero => simp [Nat.mod_one]
  | succ n ih =>
    have hpow (m : Nat) : 2 ^ (8 * m) = 256 ^ m := Nat.pow_mul 2 8 m
    rw [Finset.sum_range_succ, ih, toNat_bufByte, hpow, hpow, Nat.mod_pow_succ, Nat.mul_comm (256 ^ n)]

/-- All eight bytes sum to the view: it has no bits beyond them (R6). -/
theorem sum_bufByte (B : Word) : ∑ j ∈ Finset.range 8, (bufByte B j).toNat * 2 ^ (8 * j) = B.toNat := by
  rw [sum_bufByte_range, Nat.mod_eq_of_lt B.isLt]

/-! ## The view of the cells -/

/-- The view of any cells is the sum of `byte * 2^(8*address)`, reduced once to 64 bits (R6). -/
theorem wordOfCells_eq_ofNat_sum (cells : List Host.Cell) :
    wordOfCells cells = BitVec.ofNat 64 (cells.map fun c => c.2.toNat * 2 ^ (8 * c.1)).sum := by
  induction cells with
  | nil => rfl
  | cons c rest ih => rw [wordOfCells, ih, List.map_cons, List.sum_cons, BitVec.ofNat_add]

theorem wordOfCells_bufCells (B : Word) : wordOfCells (bufCells B) = B := by
  have hsum : ((bufCells B).map fun c => c.2.toNat * 2 ^ (8 * c.1)).sum =
      ∑ j ∈ Finset.range 8, (bufByte B j).toNat * 2 ^ (8 * j) := by
    rw [bufCells, List.map_map]; rfl
  rw [wordOfCells_eq_ofNat_sum, hsum, sum_bufByte, BitVec.ofNat_toNat, BitVec.setWidth_eq]

/-- Settles O44: the bits and bytes of the view by their equations, the sum and the cells by R6's little-endian sum. -/
theorem bufferIsItsEightBytes : Obligations.BufferIsItsEightBytes := fun B =>
  ⟨(sum_bufByte B).symm, fun j _ => toNat_bufByte B j,
    fun k _ => ⟨bufBit_eq_div_mod B k, getLsbD_eq_bufByte_bit B k⟩, wordOfCells_bufCells B⟩

end Sys2Proof.Machine
end

section
/-! PROOFS. The host port (R19 to R23): the register of each number, distinct storage behind the registers (R25), and
the equations of HostRead and HostWrite. -/

namespace Sys2Proof.Machine

open Sys2Proof

/-! ## Register numbers and registers -/

theorem regOfNumber_eq_none_iff : ∀ n : Fin 16, regOfNumber n = none ↔ 12 ≤ n.val := by decide

/-- Different register numbers name different registers (R19). -/
theorem reg_ne_of_number_ne {n m : Fin 16} {r q : Reg} (hn : regOfNumber n = some r) (hm : regOfNumber m = some q)
    (hne : m ≠ n) : q ≠ r := fun heq => hne (regOfNumber_injective r m n (heq ▸ hm) hn)

@[simp] theorem readReg_respond (r : Reg) (c : Response) (s : State) : readReg r (respond c s) = readReg r s := by
  cases r <;> rfl

theorem readReg_writeReg_same {r : Reg} {v : Word} {s t : State} (h : writeReg r v s = some t) : readReg r t = v := by
  cases r <;> cases h <;> rfl

theorem readReg_writeReg_of_ne {r q : Reg} {v : Word} {s t : State} (h : writeReg r v s = some t) (hne : q ≠ r) :
    readReg q t = readReg q s := by
  cases r <;> cases h <;> cases q <;> simp [readReg, State.statusWord] at hne ⊢

/-- RES and STATUS, and the undefined numbers, take no host write (R19, R21). -/
theorem notWritable_number (v : Word) (s : State) {n : Fin 16} (hn : n ∈ ([2, 11, 12, 13, 14, 15] : List (Fin 16))) :
    ((regOfNumber n).bind fun r => writeReg r v s) = none := by
  simp only [List.mem_cons, List.not_mem_nil, or_false] at hn
  rcases hn with rfl | rfl | rfl | rfl | rfl | rfl <;> rfl

/-! ## HostRead and HostWrite, an equation per case -/

/-- IllegalAccess leaves FAULT 1 and CAUSE 3, which is STATUS 7 (R104, R105). -/
theorem raise_illegalAccess (s : State) :
    raise .illegalAccess s = { s with status := 7, reply := .answer .illegalAccess } := rfl

theorem hostRead_defined {n : Fin 16} {r : Reg} (hr : regOfNumber n = some r) (s : State) :
    hostRead n s = { s with reply := .value (readReg r s) } := by
  simp [hostRead, hr]

theorem hostRead_undefined {n : Fin 16} (hr : regOfNumber n = none) (s : State) :
    hostRead n s = if s.faulted then respond .refused s else raise .illegalAccess s := by
  simp [hostRead, hr]

theorem hostWrite_faulted {s : State} (hf : s.faulted = true) (n : Fin 16) (v : Word) :
    hostWrite n v s = respond .refused s := by
  simp [hostWrite, hf]

theorem hostWrite_accepted {s t : State} {n : Fin 16} {r : Reg} {v : Word} (hf : s.faulted = false)
    (hr : regOfNumber n = some r) (hw : writeReg r v s = some t) : hostWrite n v s = respond .ok t := by
  simp [hostWrite, hf, hr, hw]

theorem hostWrite_notWritable {s : State} {n : Fin 16} {v : Word} (hf : s.faulted = false)
    (hw : ((regOfNumber n).bind fun r => writeReg r v s) = none) : hostWrite n v s = raise .illegalAccess s := by
  simp [hostWrite, hf, hw]

/-- An undefined number reads alike in two states with the same STATUS: the reply is REFUSED or IllegalAccess. -/
theorem hostRead_undefined_reply_congr {n : Fin 16} (hr : regOfNumber n = none) {s t : State}
    (hst : t.status = s.status) : (hostRead n t).reply = (hostRead n s).reply := by
  rw [hostRead_undefined hr, hostRead_undefined hr, faulted_congr hst]
  split <;> rfl

/-! ## Reads and writes by number -/

/-- Settles O11: a faulted unit refuses; an accepted write is the register's `writeReg`; the other six numbers have no
`writeReg`. -/
theorem hostWriteByNumber : Obligations.HostWriteByNumber := by
  intro s v
  refine ⟨fun hf n => congrArg Host.Outcome.next (hostWrite_faulted hf n v), fun hf => ?_⟩
  have accepted {n : Fin 16} {r : Reg} {t u : State} (hr : regOfNumber n = some r) (hw : writeReg r v s = some t)
      (hu : respond .ok t = u) : perform (.hostWrite n v) s = .next u :=
    congrArg Host.Outcome.next ((hostWrite_accepted hf hr hw).trans hu)
  exact ⟨accepted rfl rfl rfl, accepted rfl rfl rfl, accepted rfl rfl rfl, accepted rfl rfl rfl, accepted rfl rfl rfl,
    accepted rfl rfl rfl, accepted rfl rfl rfl, accepted rfl rfl rfl, accepted rfl rfl rfl, accepted rfl rfl rfl,
    fun _ hn => congrArg Host.Outcome.next (hostWrite_notWritable hf (notWritable_number v s hn))⟩

/-- Settles O12: a defined number gives the register's `readReg`, with STATUS widened by zeros; an undefined one goes
by FAULT. -/
theorem hostReadByNumber : Obligations.HostReadByNumber := by
  intro s
  have defined {n : Fin 16} {r : Reg} {x : Word} (hr : regOfNumber n = some r) (hx : readReg r s = x) :
      perform (.hostRead n) s = .next { s with reply := .value x } :=
    congrArg Host.Outcome.next (hx ▸ hostRead_defined hr s)
  have status_word : readReg .status s = BitVec.ofNat 64 s.status.toNat := (BitVec.ofNat_toNat 64 s.status).symm
  refine ⟨defined rfl rfl, defined rfl rfl, defined rfl rfl, defined rfl rfl, defined rfl rfl, defined rfl rfl,
    defined rfl rfl, defined rfl rfl, defined rfl rfl, defined rfl rfl, defined rfl rfl, defined rfl status_word,
    fun n hn => ?_⟩
  have undefined := hostRead_undefined ((regOfNumber_eq_none_iff n).mpr hn) s
  exact ⟨fun hf => by simp [perform, undefined, hf, respond],
    fun hf => by simp [perform, undefined, hf, raise_illegalAccess]⟩

end Sys2Proof.Machine
end

section
/-! PROOFS. What a host action can do to the registers, said once for all four (R20), and what follows for STATUS
(R17, R18), for who writes which register (R24), and for what each command reads (R11). -/

namespace Sys2Proof.Machine

open Sys2Proof Sys2Proof.Safety

/-! ## All that a host action can do -/

theorem Fault.response_ne_ok (f : Fault) : f.response ≠ .ok := by cases f <;> decide

theorem Fault.response_ne_refused (f : Fault) : f.response ≠ .refused := by cases f <;> decide

/-- The next states an action can lead to from `s`: `perform_effect` says that there are no others. -/
inductive Effect (s : State) : Action → State → Prop
  | reset : Effect s .reset (resetUnit s)
  | refused (a : Action) (hf : s.faulted = true) : Effect s a (respond .refused s)
  | raised (a : Action) (f : Fault) (hf : s.faulted = false) : Effect s a (raise f s)
  | read {n : Fin 16} {r : Reg} (hr : regOfNumber n = some r) :
      Effect s (.hostRead n) { s with reply := .value (readReg r s) }
  | wrote {n : Fin 16} {r : Reg} {v : Word} {u : State} (hf : s.faulted = false) (hr : regOfNumber n = some r)
      (hw : writeReg r v s = some u) : Effect s (.hostWrite n v) (respond .ok u)
  | completed {w : CommandWord} {i : Instr} {t : State} (hf : s.faulted = false) (hd : decode w = .ok i)
      (hx : exec i s = .next t) (hok : t.reply = .answer .ok) (hst : t.status = s.status) : Effect s (.issue w) t

theorem perform_effect {a : Action} {s t : State} (h : perform a s = .next t) : Effect s a t := by
  cases a with
  | reset => cases h; exact .reset
  | hostWrite n v =>
    cases h
    rcases hostWrite_cases n v s with ⟨hf, e⟩ | ⟨hf, r, u, hr, hw, e⟩ | ⟨hf, e⟩ <;> rw [e]
    · exact .refused _ hf
    · exact .wrote hf hr hw
    · exact .raised _ _ hf
  | hostRead n =>
    cases h
    rcases hostRead_cases n s with ⟨r, hr, e⟩ | ⟨-, hf, e⟩ | ⟨-, hf, e⟩ <;> rw [e]
    · exact .read hr
    · exact .refused _ hf
    · exact .raised _ _ hf
  | issue w =>
    rcases issue_cases h with ⟨hf, rfl⟩ | ⟨hf, -, rfl⟩ | ⟨hf, i, hd, hx⟩
    · exact .refused _ hf
    · exact .raised _ _ hf
    · rcases exec_response hx with rfl | ⟨hok, hst⟩
      · exact .raised _ _ hf
      · exact .completed hf hd hx hok hst

/-- Settles O6. -/
theorem stepPerformsNextAction : Obligations.StepPerformsNextAction := by
  intro s a rest hp
  simp [step, nextAction, hp]

/-- A ready unit refuses nothing (R51). -/
theorem Effect.reply_ne_refused {a : Action} {s t : State} (h : Effect s a t) (hs : s.faulted = false) :
    t.reply ≠ .answer .refused := by
  cases h with
  | refused _ hf => simp [hs] at hf
  | raised _ f _ => simpa using f.response_ne_refused
  | completed _ _ _ hok _ => simp [hok]
  | _ => simp

/-- Settles O15: the launch state is the given data with STATUS 0, so it is not faulted and refuses nothing. -/
theorem launchStateIsReady : Obligations.LaunchStateIsReady := by
  refine ⟨fun d => ⟨rfl, rfl, rfl, rfl, rfl, rfl, rfl, rfl, rfl, rfl, rfl, rfl, rfl, fun a t h => ?_⟩, _, rfl⟩
  exact (perform_effect h).reply_ne_refused (launch_faulted d)

/-! ## STATUS -/

/-- STATUS after an action: cleared by Reset, set by a fault of an unfaulted unit, else as it was (R17). -/
theorem Effect.status_cases {a : Action} {s t : State} (h : Effect s a t) :
    (a = .reset ∧ t = resetUnit s) ∨ (s.faulted = false ∧ ∃ f, t = raise f s) ∨ t.status = s.status := by
  cases h with
  | reset => exact .inl ⟨rfl, rfl⟩
  | raised _ f hf => exact .inr (.inl ⟨hf, f, rfl⟩)
  | refused | read => exact .inr (.inr rfl)
  | wrote _ _ hw => exact .inr (.inr (writeReg_frame hw).1)
  | completed _ _ _ _ hst => exact .inr (.inr hst)

/-- STATUS after a step, action or none (R17). -/
theorem step_status_cases {s t : State} (h : step s = .next t) :
    (∃ rest, s.pending = .reset :: rest ∧ t = resetUnit { s with pending := rest }) ∨
    (s.faulted = false ∧ ∃ f rest, t = raise f { s with pending := rest }) ∨ t.status = s.status := by
  rcases step_cases h with ⟨-, rfl⟩ | ⟨a, rest, hp, ha⟩
  · exact .inr (.inr rfl)
  · rcases (perform_effect ha).status_cases with ⟨rfl, rfl⟩ | ⟨hf, f, rfl⟩ | hst
    · exact .inl ⟨rest, hp, rfl⟩
    · exact .inr (.inl ⟨hf, f, rest, rfl⟩)
    · exact .inr (.inr hst)

theorem statusInv_congr {s t : State} (h : t.status = s.status) : StatusInv t ↔ StatusInv s := by
  rw [StatusInv, faulted_congr h, cause_congr h]

theorem statusInv_of_status_zero {s : State} (h : s.status = 0) : StatusInv s := by
  simp [StatusInv, State.faulted, State.cause, h]

/-- Fault entry sets FAULT and a code from 1 to 3 (R100, R105). -/
theorem statusInv_raise (f : Fault) (s : State) : StatusInv (raise f s) := by
  have code_range : f.code ≠ 0 ∧ f.code ≤ 3 := by cases f <;> decide
  simpa [StatusInv] using code_range

/-- Settles O21, along the three things a step does to STATUS: clear it, record a fault in it, or keep it. -/
theorem stepKeepsStatusInv : Obligations.StepKeepsStatusInv := by
  intro s t hs h
  rcases step_status_cases h with ⟨rest, -, rfl⟩ | ⟨-, f, rest, rfl⟩ | hst
  · exact statusInv_of_status_zero (resetUnit_status _)
  · exact statusInv_raise f _
  · exact (statusInv_congr hst).mpr hs

/-- Settles O22: STATUS is 0 in each of these states. -/
theorem statusInvAtReset : Obligations.StatusInvAtReset := by
  refine ⟨fun d => statusInv_of_status_zero (launch_status d), statusInv_of_status_zero (launch_status _), ?_⟩
  rintro s _ ⟨⟩
  exact statusInv_of_status_zero (resetUnit_status s)

theorem getLsbD_statusWord (s : State) {k : Nat} (hk : 4 ≤ k) : s.statusWord.getLsbD k = false := by
  simp [State.statusWord, BitVec.getLsbD_of_ge s.status k hk]

/-- Settles O23, along the three things a step does to STATUS, of which the third is no change. -/
theorem statusChangesOnlyByFaultAndReset : Obligations.StatusChangesOnlyByFaultAndReset := by
  refine ⟨fun s t h hne => ?_, fun s k hk => getLsbD_statusWord s hk⟩
  rcases step_status_cases h with ⟨rest, hp, rfl⟩ | ⟨hf, f, rest, rfl⟩ | hst
  · exact .inl ⟨rest, hp, rfl⟩
  · exact .inr ⟨hf, f, raise_faulted f _, raise_cause f _, rfl, by simp [SameData]⟩
  · exact absurd hst hne

/-! ## Who writes which register -/

/-- Settles O13: an accepted write is a `writeReg`, which is seen by reads of its own register and by no other. -/
theorem writingOneRegisterChangesNoOther : Obligations.WritingOneRegisterChangesNoOther := by
  intro n v s t h hok
  cases perform_effect h with
  | refused => cases hok
  | raised _ f _ => exact absurd (Reply.answer.inj hok) f.response_ne_ok
  | wrote _ hn hw =>
    refine ⟨⟨_, rfl, ?_⟩, ?_⟩
    · simp [hostRead_defined hn, readReg_writeReg_same hw]
    · rintro m _ _ hmn ⟨⟩ ⟨⟩
      cases hm : regOfNumber m with
      | none => exact hostRead_undefined_reply_congr hm (writeReg_frame hw).1
      | some q => simp [hostRead_defined hm, readReg_writeReg_of_ne hw (reg_ne_of_number_ne hn hm hmn)]

/-- A host write of a register that has a number changes that register alone, so RES, which takes none, never. -/
theorem writeReg_changes {n : Fin 16} {r : Reg} {v : Word} {s t : State} (hn : regOfNumber n = some r)
    (hw : writeReg r v s = some t) :
    (t.buf ≠ s.buf → n = 0) ∧ (t.val ≠ s.val → n = 1) ∧ t.res = s.res ∧
    (¬SamePoint s t → 3 ≤ n.val ∧ n.val ≤ 10) := by
  have keeps (m : Fin 16) {q : Reg} (hm : regOfNumber m = some q) (hmn : m ≠ n) : readReg q t = readReg q s :=
    readReg_writeReg_of_ne hw (reg_ne_of_number_ne hn hm hmn)
  refine ⟨fun hne => ?_, fun hne => ?_, ?_, fun hne => ?_⟩
  · by_contra hn0; exact hne (keeps 0 rfl (Ne.symm hn0))
  · by_contra hn1; exact hne (keeps 1 rfl (Ne.symm hn1))
  · exact readReg_writeReg_of_ne (q := .res) hw fun hr => by subst hr; cases hw
  · by_contra hpoint
    have point_keeps (m : Fin 16) {q : Reg} (hm : regOfNumber m = some q) (hm3 : 3 ≤ m.val ∧ m.val ≤ 10) :
        readReg q t = readReg q s := keeps m hm fun heq => hpoint (heq ▸ hm3)
    exact hne ⟨point_keeps 3 rfl (by decide), point_keeps 4 rfl (by decide), point_keeps 5 rfl (by decide),
      point_keeps 6 rfl (by decide), point_keeps 7 rfl (by decide), point_keeps 8 rfl (by decide),
      point_keeps 9 rfl (by decide), point_keeps 10 rfl (by decide)⟩

/-- The destinations of the commands: WRF and ENC write BUF, MASK and RDF write RES, DEC the point registers (R24). -/
theorem exec_changes {i : Instr} {s t : State} (h : exec i s = .next t) :
    (t.buf ≠ s.buf → i = .enc ∨ ∃ b n, i = .wrf b n) ∧ t.val = s.val ∧
    (t.res ≠ s.res → (∃ n, i = .mask n) ∨ ∃ b n, i = .rdf b n) ∧ (¬SamePoint s t → i = .dec) := by
  rcases exec_cases h with rfl | ⟨_, rfl, rfl⟩ | ⟨_, _, rfl, rfl⟩ | ⟨_, _, rfl, rfl⟩ | ⟨rfl, rfl⟩ | ⟨rfl, rfl⟩ <;> simp

/-- Settles O25: a refusal, a fault and a read write no data register; a HostWrite and a command write only their own. -/
theorem onlyNamedWritersChangeRegisters : Obligations.OnlyNamedWritersChangeRegisters := by
  intro s t a rest hp h ha
  rw [stepPerformsNextAction s a rest hp] at h
  cases perform_effect h with
  | reset => exact absurd rfl ha
  | refused | raised | read => simp
  | wrote _ hn hw =>
    obtain ⟨hbuf, hval, hres, hpoint⟩ := writeReg_changes hn hw
    exact ⟨fun hne => .inl ⟨_, by rw [hbuf hne]⟩, fun hne => ⟨_, by rw [hval hne]⟩, fun hne => absurd hres hne,
      fun hne => .inl ⟨_, _, rfl, hpoint hne⟩⟩
  | completed _ hd hx =>
    obtain ⟨hbuf, hval, hres, hpoint⟩ := exec_changes hx
    exact ⟨fun hne => .inr ⟨_, rfl, by simpa [hd] using hbuf hne⟩, fun hne => absurd hval hne,
      fun hne => ⟨_, rfl, by simpa [hd] using hres hne⟩, fun hne => .inr ⟨_, rfl, by simpa [hd] using hpoint hne⟩⟩

/-! ## What a command reads -/

theorem execMask_congr {n : Nat} {s s' t t' : State} (h : exec (.mask n) s = .next t)
    (h' : exec (.mask n) s' = .next t') : t.reply = t'.reply ∧ (t.reply = .answer .ok → t.res = t'.res) := by
  by_cases hb : n ≤ 64
  · cases (execMask_inRange n s hb).symm.trans h
    cases (execMask_inRange n s' hb).symm.trans h'
    simp
  · cases (execMask_outOfRange n s (by omega)).symm.trans h
    cases (execMask_outOfRange n s' (by omega)).symm.trans h'
    simp [Fault.response]

theorem execRdf_congr {b n : Nat} {s s' t t' : State} (hbuf : s.buf = s'.buf) (h : exec (.rdf b n) s = .next t)
    (h' : exec (.rdf b n) s' = .next t') : t.reply = t'.reply ∧ (t.reply = .answer .ok → t.res = t'.res) := by
  by_cases hb : b + n ≤ 64
  · cases (execRdf_inBounds b n s hb).symm.trans h
    cases (execRdf_inBounds b n s' hb).symm.trans h'
    simp [hbuf]
  · cases (execRdf_outOfBounds b n s (by omega)).symm.trans h
    cases (execRdf_outOfBounds b n s' (by omega)).symm.trans h'
    simp [Fault.response]

theorem execWrf_congr {b n : Nat} {s s' t t' : State} (hbuf : s.buf = s'.buf) (hval : s.val = s'.val)
    (h : exec (.wrf b n) s = .next t) (h' : exec (.wrf b n) s' = .next t') :
    t.reply = t'.reply ∧ t.buf = t'.buf := by
  by_cases hb : b + n ≤ 64
  · cases (execWrf_inBounds b n s hb).symm.trans h
    cases (execWrf_inBounds b n s' hb).symm.trans h'
    simp [hbuf, hval]
  · cases (execWrf_outOfBounds b n s (by omega)).symm.trans h
    cases (execWrf_outOfBounds b n s' (by omega)).symm.trans h'
    simp [hbuf]

/-- The point that ENC encodes depends on the eight point registers alone (R93). -/
theorem pointOf_congr {s s' : State} (h : SamePoint s s') : pointOf s' = pointOf s := by
  obtain ⟨hlon, hlonmin, hlonsec, hlonms, hlat, hlatmin, hlatsec, hlatms⟩ := h
  simp only [pointOf, hlon, hlonmin, hlonsec, hlonms, hlat, hlatmin, hlatsec, hlatms]

/-- Settles O26: the three field commands by their bounds test, ENC by the point it encodes, DEC by the record it
decodes. -/
theorem commandsReadOnlyTheirSources : Obligations.CommandsReadOnlyTheirSources := by
  refine ⟨fun n s s' t t' => execMask_congr, fun b n s s' t t' => execRdf_congr,
    fun b n s s' t t' => execWrf_congr, ?_, ?_⟩
  · rintro s s' _ _ hpoint ⟨⟩ ⟨⟩
    simp [pointOf_congr hpoint]
  · rintro s s' _ _ hbuf ⟨⟩ ⟨⟩
    exact ⟨rfl, by simp [SamePoint, hbuf]⟩

end Sys2Proof.Machine
end

section
/-! PROOFS. Fields inside fields (R33): what a successful read says, and the run of the outer value that an inner field
reads. -/

namespace Sys2Proof.Machine

open Sys2Proof

theorem readField_eq_some_iff {B : Word} {start size v : Nat} :
    readField B start size = some v ↔ start + size ≤ 64 ∧ fieldValue B start size = v := by
  by_cases hin : start + size ≤ 64
  · simp [hin]
  · simp [readField_outOfBounds B start size (by omega), hin]

/-- Bit `j` of the inner value and bit `size - i - m + j` of the outer value are the same buffer bit, since the first bit
of a field is its most significant one (R32). -/
theorem fieldValue_inside (B : Word) (start : Nat) {size i m : Nat} (hfit : i + m ≤ size) :
    fieldValue B (start + i) m = fieldValue B start size / 2 ^ (size - i - m) % 2 ^ m := by
  apply Nat.eq_of_testBit_eq
  intro j
  rw [Nat.testBit_mod_two_pow, Nat.testBit_div_two_pow, testBit_fieldValue, testBit_fieldValue]
  by_cases hj : j < m
  · have hinside : j + (size - i - m) < size := by omega
    have hsame : start + size - 1 - (j + (size - i - m)) = start + i + m - 1 - j := by omega
    simp [hj, hinside, hsame]
  · simp [hj]

/-- Settles O43: the inner field is in bounds with the outer one, and reads its run of the outer value. -/
theorem fieldInsideFieldReadsItsPart : Obligations.FieldInsideFieldReadsItsPart := by
  intro B b n i m v hread hfit
  obtain ⟨hin, rfl⟩ := readField_eq_some_iff.mp hread
  rw [readField_inBounds B (b + i) m (by omega), fieldValue_inside B b hfit]

end Sys2Proof.Machine
end

section
/-! PROOFS. Decoder and encoder (R46 to R49): an equation per row of the opcode table, exactly which words are illegal,
and that decoding and encoding undo each other. -/

namespace Sys2Proof

/-! ## One equation per row of the opcode table (R49) -/

theorem decode_mask {w : CommandWord} (hr : CommandWord.rsv w = 0) (ho : CommandWord.op w = 1)
    (hb : CommandWord.start w = 0) : decode w = .ok (.mask (CommandWord.size w)) := by
  simp [decode, whenUnusedZero, hr, ho, hb]

theorem decode_rdf {w : CommandWord} (hr : CommandWord.rsv w = 0) (ho : CommandWord.op w = 2) :
    decode w = .ok (.rdf (CommandWord.start w) (CommandWord.size w)) := by
  simp [decode, hr, ho]

theorem decode_wrf {w : CommandWord} (hr : CommandWord.rsv w = 0) (ho : CommandWord.op w = 3) :
    decode w = .ok (.wrf (CommandWord.start w) (CommandWord.size w)) := by
  simp [decode, hr, ho]

theorem decode_enc {w : CommandWord} (hr : CommandWord.rsv w = 0) (ho : CommandWord.op w = 4)
    (hn : CommandWord.size w = 0) (hb : CommandWord.start w = 0) : decode w = .ok .enc := by
  simp [decode, whenUnusedZero, hr, ho, hn, hb]

theorem decode_dec {w : CommandWord} (hr : CommandWord.rsv w = 0) (ho : CommandWord.op w = 5)
    (hn : CommandWord.size w = 0) (hb : CommandWord.start w = 0) : decode w = .ok .dec := by
  simp [decode, whenUnusedZero, hr, ho, hn, hb]

/-- Every word that is in no row is illegal, and no other (R49). -/
theorem decode_error_iff (w : CommandWord) : (∃ e, decode w = .error e) ↔
    (CommandWord.op w < 1 ∨ 5 < CommandWord.op w) ∨ CommandWord.rsv w ≠ 0 ∨
    (CommandWord.op w = 1 ∧ CommandWord.start w ≠ 0) ∨
    ((CommandWord.op w = 4 ∨ CommandWord.op w = 5) ∧ (CommandWord.size w ≠ 0 ∨ CommandWord.start w ≠ 0)) := by
  cases hd : decode w with
  | ok i =>
    have row := decode_ok_cases hd
    simp only [reduceCtorEq, exists_false, false_iff]
    omega
  | error e =>
    refine ⟨fun _ => ?_, fun _ => ⟨e, rfl⟩⟩
    have not_ok {i : Instr} : decode w ≠ .ok i := by simp [hd]
    by_contra hrow
    have hr : CommandWord.rsv w = 0 := by omega
    have hop : CommandWord.op w = 1 ∨ CommandWord.op w = 2 ∨ CommandWord.op w = 3 ∨ CommandWord.op w = 4 ∨
        CommandWord.op w = 5 := by omega
    rcases hop with ho | ho | ho | ho | ho
    · exact not_ok (decode_mask hr ho (by omega))
    · exact not_ok (decode_rdf hr ho)
    · exact not_ok (decode_wrf hr ho)
    · exact not_ok (decode_enc hr ho (by omega) (by omega))
    · exact not_ok (decode_dec hr ho (by omega) (by omega))

/-! ## Decoding and encoding undo each other -/

/-- Settles O1: the packed word of a well-formed command has the command's own fields, which are those of its row. -/
theorem decodeOfEncode : Obligations.DecodeOfEncode := by
  intro i hwf
  cases i with
  | mask size =>
    have hsize : size < 256 := by simpa [Instr.wellFormed] using hwf
    obtain ⟨ho, hr, hn, hb⟩ := packCommand_fields 1 size 0 (by decide) hsize (by decide)
    exact (decode_mask hr ho hb).trans (by rw [hn])
  | rdf start size =>
    obtain ⟨hstart, hsize⟩ : start < 256 ∧ size < 256 := by simpa [Instr.wellFormed] using hwf
    obtain ⟨ho, hr, hn, hb⟩ := packCommand_fields 2 size start (by decide) hsize hstart
    exact (decode_rdf hr ho).trans (by rw [hn, hb])
  | wrf start size =>
    obtain ⟨hstart, hsize⟩ : start < 256 ∧ size < 256 := by simpa [Instr.wellFormed] using hwf
    obtain ⟨ho, hr, hn, hb⟩ := packCommand_fields 3 size start (by decide) hsize hstart
    exact (decode_wrf hr ho).trans (by rw [hn, hb])
  | enc =>
    obtain ⟨ho, hr, hn, hb⟩ := packCommand_fields 4 0 0 (by decide) (by decide) (by decide)
    exact decode_enc hr ho hn hb
  | dec =>
    obtain ⟨ho, hr, hn, hb⟩ := packCommand_fields 5 0 0 (by decide) (by decide) (by decide)
    exact decode_dec hr ho hn hb

/-- A word whose reserved field is 0 is packed from its other three fields (R46). -/
theorem packCommand_of_fields {w : CommandWord} (hr : CommandWord.rsv w = 0) :
    packCommand (CommandWord.op w) (CommandWord.size w) (CommandWord.start w) = w := by
  apply BitVec.eq_of_toNat_eq
  rw [packCommand_toNat _ _ _ (op_lt w) (size_lt w) (start_lt w), word_toNat_eq_fields w, hr]
  omega

/-- Settles O2: in each row the command holds the word's fields, and the fields it does not hold are fixed. -/
theorem encodeOfDecode : Obligations.EncodeOfDecode := by
  intro w i hd
  obtain ⟨hr, row⟩ := decode_ok_cases hd
  have hpack := packCommand_of_fields hr
  have hsize := size_lt w
  have hstart := start_lt w
  rcases row with ⟨ho, hb, rfl⟩ | ⟨ho, rfl⟩ | ⟨ho, rfl⟩ | ⟨ho, hn, hb, rfl⟩ | ⟨ho, hn, hb, rfl⟩
  · exact ⟨by simpa [Instr.wellFormed] using hsize, by rwa [ho, hb] at hpack⟩
  · exact ⟨by simp [Instr.wellFormed, hstart, hsize], by rwa [ho] at hpack⟩
  · exact ⟨by simp [Instr.wellFormed, hstart, hsize], by rwa [ho] at hpack⟩
  · exact ⟨rfl, by rwa [ho, hn, hb] at hpack⟩
  · exact ⟨rfl, by rwa [ho, hn, hb] at hpack⟩

/-- Settles O4: each word is of its row or outside all rows, by evaluation of its four fields. -/
theorem sampleWordsDecode : Obligations.SampleWordsDecode := by
  unfold Obligations.SampleWordsDecode
  decide

end Sys2Proof
end

section
/-! PROOFS. Issue, test by test (R50), the fault entries it can reach, and the response codes (R51). -/

namespace Sys2Proof.Machine

open Sys2Proof Sys2Proof.Safety

/-! ## Fault entry and Issue, an equation per case -/

/-- OutOfBounds leaves FAULT 1 and CAUSE 1, which is STATUS 3 (R101, R105). -/
theorem raise_outOfBounds (s : State) :
    raise .outOfBounds s = { s with status := 3, reply := .answer .outOfBounds } := rfl

/-- IllegalCommand leaves FAULT 1 and CAUSE 2, which is STATUS 5 (R103, R105). -/
theorem raise_illegalCommand (s : State) :
    raise .illegalCommand s = { s with status := 5, reply := .answer .illegalCommand } := rfl

theorem issue_faulted {s : State} (hf : s.faulted = true) (w : CommandWord) :
    issue w s = .next (respond .refused s) := by
  simp [issue, hf]

theorem issue_illegal {s : State} {w : CommandWord} {e : DecodeError} (hf : s.faulted = false)
    (hd : decode w = .error e) : issue w s = .next (raise .illegalCommand s) := by
  simp [issue, hf, hd]

theorem issue_decoded {s : State} {w : CommandWord} {i : Instr} (hf : s.faulted = false) (hd : decode w = .ok i) :
    issue w s = exec i s := by
  simp [issue, hf, hd]

theorem issue_outOfBounds {s : State} {w : CommandWord} {i : Instr} (hf : s.faulted = false) (hd : decode w = .ok i)
    (hx : exec i s = .next (raise .outOfBounds s)) :
    issue w s = .next { s with status := 3, reply := .answer .outOfBounds } := by
  rw [issue_decoded hf hd, hx, raise_outOfBounds]

/-- Settles O10: Issue's three cases, the two answers of a command, and the step that performs the Issue. -/
theorem issueFollowsItsTests : Obligations.IssueFollowsItsTests := by
  intro w s
  refine ⟨fun hf => issue_faulted hf w, ?_, ?_, stepPerformsNextAction s (.issue w)⟩
  · rintro hf ⟨e, hd⟩
    rw [issue_illegal hf hd, raise_illegalCommand]
  · intro i hf hd
    refine ⟨issue_decoded hf hd, ?_⟩
    obtain ⟨t, hx⟩ := exec_next i s
    rcases exec_response hx with rfl | ⟨hok, hst⟩
    · exact .inl (hx.trans (by rw [raise_outOfBounds]))
    · exact .inr ⟨t, hx, hok, hst⟩

/-- Settles O7: the step is the Issue, which is the command's meaning; FAULT does not depend on the pending actions. -/
theorem stepRunsDecodedCommand : Obligations.StepRunsDecodedCommand := by
  intro s w rest i hp hf hd
  have hf' : ({ s with pending := rest } : State).faulted = false := hf
  exact (stepPerformsNextAction s (.issue w) rest hp).trans (issue_decoded hf' hd)

/-! ## Decoding against the opcode table (R49) -/

theorem op_eq_div (w : CommandWord) : CommandWord.op w = w.toNat / 2 ^ 24 := by
  have hw := w.isLt
  rw [CommandWord.op, BitVec.extractLsb'_toNat, Nat.shiftRight_eq_div_pow]
  omega

theorem rsv_eq_div_mod (w : CommandWord) : CommandWord.rsv w = w.toNat / 2 ^ 16 % 2 ^ 8 := by
  rw [CommandWord.rsv, BitVec.extractLsb'_toNat, Nat.shiftRight_eq_div_pow]

theorem size_eq_div_mod (w : CommandWord) : CommandWord.size w = w.toNat / 2 ^ 8 % 2 ^ 8 := by
  rw [CommandWord.size, BitVec.extractLsb'_toNat, Nat.shiftRight_eq_div_pow]

theorem start_eq_mod (w : CommandWord) : CommandWord.start w = w.toNat % 2 ^ 8 := by
  rw [CommandWord.start, BitVec.extractLsb'_toNat, Nat.shiftRight_zero]

/-- Settles O3: each mask and match is a condition on the four fields, in which the rows differ by `op`; the illegal
words are those of `decode_error_iff`; the operands of a field command are tested only when it runs. -/
theorem decodeMatchesOpcodeTable : Obligations.DecodeMatchesOpcodeTable := by
  intro w
  obtain ⟨hmask, hrdf, hwrf, henc, hdec⟩ := matches_iff w
  rw [← op_eq_div w, ← rsv_eq_div_mod w, ← size_eq_div_mod w, ← start_eq_mod w]
  refine ⟨fun h => ?_, fun h => ?_, fun h => ?_, fun h => ?_, fun h => ?_, ?_, ?_, decode_error_iff w,
    fun s hf => ⟨?_, ?_, ?_⟩⟩
  · obtain ⟨ho, hr, hb⟩ := hmask.mp h
    exact decode_mask hr ho hb
  · obtain ⟨ho, hr⟩ := hrdf.mp h
    exact decode_rdf hr ho
  · obtain ⟨ho, hr⟩ := hwrf.mp h
    exact decode_wrf hr ho
  · obtain ⟨ho, hr, hn, hb⟩ := henc.mp h
    exact decode_enc hr ho hn hb
  · obtain ⟨ho, hr, hn, hb⟩ := hdec.mp h
    exact decode_dec hr ho hn hb
  · intro h1 h2 h3 h4 h5
    rw [Ne, hmask] at h1
    rw [Ne, hrdf] at h2
    rw [Ne, hwrf] at h3
    rw [Ne, henc] at h4
    rw [Ne, hdec] at h5
    rw [decode_error_iff]
    omega
  · simp only [List.pairwise_cons, List.forall_mem_cons, List.not_mem_nil, false_imp_iff, implies_true, and_true,
      List.Pairwise.nil, hmask, hrdf, hwrf, henc, hdec]
    omega
  · rintro ⟨e, hd⟩
    rw [issue_illegal hf hd, raise_illegalCommand]
  · rintro b n (hd | hd) hbound
    · exact issue_outOfBounds hf hd (execRdf_outOfBounds b n s hbound)
    · exact issue_outOfBounds hf hd (execWrf_outOfBounds b n s hbound)
  · intro n hd hbound
    exact issue_outOfBounds hf hd (execMask_outOfRange n s hbound)

/-! ## The response codes (R51) -/

/-- The code of a fault's response is the CAUSE it records (R51, R100). -/
theorem Fault.response_code (f : Fault) : f.response.code = f.code.toNat := by cases f <;> rfl

theorem Fault.response_code_range (f : Fault) : 1 ≤ f.response.code ∧ f.response.code ≤ 3 := by
  cases f <;> decide

/-- The actions that a faulted unit refuses: every write and Issue, and the read of an undefined register (R51). -/
def RefusedWhenFaulted (a : Action) : Prop :=
  (∃ n v, a = .hostWrite n v) ∨ (∃ w, a = .issue w) ∨ ∃ n : Fin 16, a = .hostRead n ∧ 12 ≤ n.val

theorem not_refusedWhenFaulted_of_defined {n : Fin 16} {r : Reg} (hr : regOfNumber n = some r) :
    ¬RefusedWhenFaulted (.hostRead n) := by
  simp [RefusedWhenFaulted, ← regOfNumber_eq_none_iff, hr]

/-- All that an action other than Reset can answer: REFUSED, a fault, or OK with STATUS unchanged (R51). -/
theorem perform_answer {a : Action} {s t : State} (ha : a ≠ .reset) (h : perform a s = .next t) :
    (s.faulted = true ∧ RefusedWhenFaulted a ∧ t = respond .refused s) ∨
    (s.faulted = false ∧ ∃ f, t = raise f s) ∨
    (¬(s.faulted = true ∧ RefusedWhenFaulted a) ∧ t.reply.response = some .ok ∧ t.status = s.status ∧
      ∀ n, a = .hostRead n → ∃ v, t.reply = .value v) := by
  cases a with
  | reset => exact absurd rfl ha
  | hostWrite n v =>
    cases h
    rcases hostWrite_cases n v s with ⟨hf, e⟩ | ⟨hf, r, u, -, hw, e⟩ | ⟨hf, e⟩ <;> rw [e]
    · exact .inl ⟨hf, .inl ⟨n, v, rfl⟩, rfl⟩
    · exact .inr (.inr ⟨by simp [hf], rfl, (writeReg_frame hw).1, by simp⟩)
    · exact .inr (.inl ⟨hf, _, rfl⟩)
  | hostRead n =>
    cases h
    rcases hostRead_cases n s with ⟨r, hr, e⟩ | ⟨hr, hf, e⟩ | ⟨-, hf, e⟩ <;> rw [e]
    · exact .inr (.inr ⟨fun hrefused => not_refusedWhenFaulted_of_defined hr hrefused.2, rfl, rfl, by simp⟩)
    · exact .inl ⟨hf, .inr (.inr ⟨n, rfl, (regOfNumber_eq_none_iff n).mp hr⟩), rfl⟩
    · exact .inr (.inl ⟨hf, _, rfl⟩)
  | issue w =>
    rcases issue_cases h with ⟨hf, rfl⟩ | ⟨hf, -, rfl⟩ | ⟨hf, i, -, hx⟩
    · exact .inl ⟨hf, .inr (.inl ⟨w, rfl⟩), rfl⟩
    · exact .inr (.inl ⟨hf, _, rfl⟩)
    · rcases exec_response hx with rfl | ⟨hok, hst⟩
      · exact .inr (.inl ⟨hf, _, rfl⟩)
      · exact .inr (.inr ⟨by simp [hf], by rw [hok]; rfl, hst, by simp⟩)

/-- Settles O18, along the three answers of an action: the code tells them apart, and a fault's code is the CAUSE it
leaves. -/
theorem responseCodes : Obligations.ResponseCodes := by
  refine ⟨⟨rfl, rfl, rfl, rfl, rfl⟩, ?_, fun a s t ha h => ?_⟩
  · rintro s _ ⟨⟩
    rfl
  · rcases perform_answer ha h with ⟨hf, who, rfl⟩ | ⟨hf, f, rfl⟩ | ⟨not_refused, hok, hst, hread⟩
    · exact ⟨.refused, rfl, by simp [Response.code], by simp [Response.code], iff_of_true rfl ⟨hf, who⟩,
        by simp [SameUnit, SameData]⟩
    · have hrange := f.response_code_range
      have hcause : (raise f s).cause.toNat = f.response.code := by rw [raise_cause, f.response_code]
      exact ⟨f.response, rfl, by omega, fun _ _ => ⟨by simp [SameData], raise_faulted f s, hcause, hf⟩,
        iff_of_false (by omega) (by simp [hf]), by omega⟩
    · exact ⟨.ok, hok, fun _ => ⟨hst, hread⟩, by simp [Response.code], iff_of_false (by decide) not_refused,
        by simp [Response.code]⟩

end Sys2Proof.Machine
end

section
/-! PROOFS. The assembler (R53): numbers of any size are read whole, operands are held to 0..255, and nothing else is
asked of a field. -/

namespace Sys2Proof.Machine

open Sys2Proof

/-! ## Numbers -/

theorem digitValue_digitChar : ∀ d < 16, digitValue (Nat.digitChar d) = some d := by decide

/-- One more digit at the end of the digits already read. -/
theorem digitsOnto_concat_digitChar {base acc v d : Nat} {cs : List Char} (h : digitsOnto base acc cs = some v)
    (hd : d < base) (hbase : base ≤ 16) : digitsOnto base acc (cs ++ [Nat.digitChar d]) = some (v * base + d) := by
  induction cs generalizing acc with
  | nil =>
    cases h
    simp [digitsOnto, digitValue_digitChar d (by omega), hd]
  | cons c cs ih =>
    simp only [digitsOnto, List.cons_append] at h ⊢
    cases hc : digitValue c with
    | none => simp [hc] at h
    | some x =>
      by_cases hx : x < base
      · simp only [hc, hx, if_true] at h ⊢
        exact ih h
      · simp [hc, hx] at h

/-- The digits of a number are read as that number, most significant digit first. -/
theorem digitsOnto_toDigits {base : Nat} (hlow : 1 < base) (hhigh : base ≤ 16) (n : Nat) :
    digitsOnto base 0 (Nat.toDigits base n) = some n := by
  induction n using Nat.strong_induction_on with
  | h n ih =>
    by_cases hn : n < base
    · have hdigit := digitsOnto_concat_digitChar (cs := []) (acc := 0) rfl hn hhigh
      simpa [Nat.toDigits_of_lt_base hn] using hdigit
    · have hread := ih (n / base) (Nat.div_lt_self (by omega) hlow)
      rw [Nat.toDigits_of_base_le hlow (by omega),
        digitsOnto_concat_digitChar hread (Nat.mod_lt n (by omega)) hhigh, Nat.div_add_mod']

/-- What reads as decimal digits is no `0x` number: `x` is no digit. -/
theorem parseNumber_decimal {cs : List Char} {n : Nat} (hne : cs ≠ []) (h : digitsOnto 10 0 cs = some n) :
    parseNumber cs = some n := by
  unfold parseNumber
  split
  · exact absurd rfl hne
  · simp [digitsOnto, digitValue] at h
  · exact h

theorem parseNumber_hexadecimal {cs : List Char} (hne : cs ≠ []) :
    parseNumber ('0' :: 'x' :: cs) = digitsOnto 16 0 cs := by
  cases cs with
  | nil => exact absurd rfl hne
  | cons c cs => rfl

/-- Settles O54: both bases by `digitsOnto_toDigits`. -/
theorem numbersAreReadWhole : Obligations.NumbersAreReadWhole := fun n =>
  ⟨parseNumber_decimal Nat.toDigits_ne_nil (digitsOnto_toDigits (by decide) (by decide) n),
    (parseNumber_hexadecimal Nat.toDigits_ne_nil).trans (digitsOnto_toDigits (by decide) (by decide) n)⟩

/-! ## Operands -/

theorem parseOperand_of_lt {cs : List Char} {n : Nat} (hp : parseNumber cs = some n) (hn : n < 256) :
    parseOperand cs = .ok n := by
  simp [parseOperand, hp, hn]

theorem parseOperand_of_ge {cs : List Char} {n : Nat} (hp : parseNumber cs = some n) (hn : 256 ≤ n) :
    parseOperand cs = .error .outOfRange := by
  simp [parseOperand, hp, hn]

theorem parseOperand_lt {cs : List Char} {n : Nat} (h : parseOperand cs = .ok n) : n < 256 := by
  unfold parseOperand at h
  split at h
  · split at h
    · cases h; assumption
    · cases h
  · cases h

theorem twoOperands_of_lt (f : Nat → Nat → Instr) {x y : List Char} {n m : Nat} (hx : parseNumber x = some n)
    (hy : parseNumber y = some m) (hn : n < 256) (hm : m < 256) : twoOperands f x y = .ok (f n m) := by
  simp [twoOperands, parseOperand_of_lt hx hn, parseOperand_of_lt hy hm]

theorem twoOperands_of_ge (f : Nat → Nat → Instr) {x y : List Char} {n m : Nat} (hx : parseNumber x = some n)
    (hy : parseNumber y = some m) (h : 256 ≤ n ∨ 256 ≤ m) : twoOperands f x y = .error .outOfRange := by
  by_cases hn : 256 ≤ n
  · simp [twoOperands, parseOperand_of_ge hx hn]
  · have hm : 256 ≤ m := h.resolve_left hn
    simp [twoOperands, parseOperand_of_lt hx (Nat.lt_of_not_le hn), parseOperand_of_ge hy hm]

/-- Two accepted operands are both in 0..255. -/
theorem twoOperands_ok {f : Nat → Nat → Instr} {x y : List Char} {i : Instr} (h : twoOperands f x y = .ok i) :
    ∃ b n, b < 256 ∧ n < 256 ∧ i = f b n := by
  unfold twoOperands at h
  split at h
  next b n hb hn => cases h; exact ⟨b, n, parseOperand_lt hb, parseOperand_lt hn, rfl⟩
  next => cases h
  next => cases h

/-! ## Lines -/

theorem assembleLine_of_tokens {line t : List Char} {ts : List (List Char)} (h : tokens [] line = t :: ts) :
    assembleLine line = (assembleTokens (t :: ts)).map some := by
  simp only [assembleLine, h]
  cases assembleTokens (t :: ts) <;> rfl

/-- Each form of command line yields operands in 0..255 (R53). -/
theorem assembleTokens_wellFormed {ts : List (List Char)} {i : Instr} (h : assembleTokens ts = .ok i) :
    i.wellFormed = true := by
  unfold assembleTokens at h
  split at h
  next =>
    split at h
    next n hn => cases h; simpa [Instr.wellFormed] using parseOperand_lt hn
    next => cases h
  next => obtain ⟨b, n, hb, hn, rfl⟩ := twoOperands_ok h; simp [Instr.wellFormed, hb, hn]
  next => obtain ⟨b, n, hb, hn, rfl⟩ := twoOperands_ok h; simp [Instr.wellFormed, hb, hn]
  next => cases h; rfl
  next => cases h; rfl
  next => cases h

/-- Settles O5: a line with a command on it has words, and they were accepted. -/
theorem assembledLinesAreWellFormed : Obligations.AssembledLinesAreWellFormed := by
  intro line i h
  cases ht : tokens [] line with
  | nil => simp [assembleLine, ht] at h
  | cons t ts =>
    rw [assembleLine_of_tokens ht] at h
    cases hi : assembleTokens (t :: ts) with
    | error e => simp [hi, Except.map] at h
    | ok j =>
      have hij : j = i := by simpa [hi, Except.map] using h
      exact assembleTokens_wellFormed (hij ▸ hi)

/-- Settles O53: the operand test is the only one between the words of a command line and its command. -/
theorem assemblerChecksOperandsOnly : Obligations.AssemblerChecksOperandsOnly := by
  intro line x y n m hx hy
  refine ⟨fun ht => ?_, fun ht => ?_, fun ht => ?_⟩
  · rw [assembleLine_of_tokens ht]
    exact ⟨fun hn => by simp [assembleTokens, parseOperand_of_ge hx hn, Except.map],
      fun hn => by simp [assembleTokens, parseOperand_of_lt hx hn, Except.map]⟩
  · rw [assembleLine_of_tokens ht]
    exact ⟨fun hnm => congrArg (Except.map some) (twoOperands_of_ge .rdf hx hy hnm),
      fun hn hm => congrArg (Except.map some) (twoOperands_of_lt .rdf hx hy hn hm)⟩
  · rw [assembleLine_of_tokens ht]
    exact ⟨fun hnm => congrArg (Except.map some) (twoOperands_of_ge .wrf hx hy hnm),
      fun hn hm => congrArg (Except.map some) (twoOperands_of_lt .wrf hx hy hn hm)⟩

end Sys2Proof.Machine
end

section
/-! PROOFS. `mask`, `read_field` and `write_field` (R61 to R69, R73, R75): the sums and word formulas of the spec against
the model's fields, and what a field write leaves to a later read or write. -/

namespace Sys2Proof.Machine

open Sys2Proof Sys2Proof.Safety

/-! ## The mask (R61) -/

theorem testBit_maskOf (n k : Nat) : (maskOf n).testBit k = decide (k < n) :=
  Nat.testBit_two_pow_sub_one n k

/-- Settles O34. -/
theorem maskPattern : Obligations.MaskPattern := fun n => ⟨rfl, testBit_maskOf n⟩

/-! ## Bounds (R69, R75) -/

theorem readField_eq_none_iff {B : Word} {b n : Nat} : readField B b n = none ↔ 64 < b + n := by
  rcases Nat.lt_or_ge 64 (b + n) with hout | hin
  · simp [hout]
  · simp [hin]

theorem writeField_eq_none_iff {B : Word} {b n : Nat} {value : Int} :
    writeField B b n value = none ↔ 64 < b + n := by
  rcases Nat.lt_or_ge 64 (b + n) with hout | hin
  · simp [hout]
  · simp [hin]

theorem writeField_eq_some_iff {B C : Word} {b n : Nat} {value : Int} :
    writeField B b n value = some C ↔ b + n ≤ 64 ∧ depositField B b n (widen value) = C := by
  rcases Nat.lt_or_ge 64 (b + n) with hout | hin
  · simp [hout]
  · simp [hin]

/-- Settles O40. -/
theorem outOfBoundsHasNoValue : Obligations.OutOfBoundsHasNoValue :=
  fun _ _ _ _ => ⟨readField_eq_none_iff, writeField_eq_none_iff⟩

/-- Settles O42: in bounds, reading and writing no bits are the base cases of the two field functions. -/
theorem widthZero : Obligations.WidthZero := fun B b value =>
  ⟨fun h => ⟨readField_inBounds B b 0 h, writeField_inBounds B b 0 value h⟩,
    fun h => ⟨readField_outOfBounds B b 0 h, writeField_outOfBounds B b 0 value h⟩⟩

/-! ## `read_field` as a sum and as a reversed slice (R62, R63) -/

/-- The sum of R62 is the model's field value: a further bit doubles the weight of all bits before it. -/
theorem fieldSum_eq_fieldValue (B : Word) (b n : Nat) : fieldSum B b n = fieldValue B b n := by
  induction n with
  | zero => rfl
  | succ n ih =>
    have weight_doubles : ∀ j ∈ Finset.range n, (B.getLsbD (b + j)).toNat * 2 ^ (n + 1 - 1 - j) =
        2 * ((B.getLsbD (b + j)).toNat * 2 ^ (n - 1 - j)) := fun j hj => by
      have hexp : n + 1 - 1 - j = n - 1 - j + 1 := by have := Finset.mem_range.mp hj; omega
      rw [hexp, Nat.pow_succ]
      ring
    rw [fieldValue, ← ih, fieldSum, Finset.sum_range_succ, Finset.sum_congr rfl weight_doubles, ← Finset.mul_sum]
    simp [fieldSum, bufBit]

/-- Settles O35. -/
theorem readFieldIsSum : Obligations.ReadFieldIsSum := fun B b n hin =>
  ⟨fieldValue B b n, readField_inBounds B b n hin, (fieldSum_eq_fieldValue B b n).symm, fieldValue_lt B b n,
    testBit_fieldValue B b n, fun C hsame =>
      (readField_inBounds C b n hin).trans (congrArg some (fieldValue_congr C B b n hsame))⟩

/-- `rev` of a number whose low bits are the field's, in buffer order, is the field's value (R7, R62). -/
theorem revSum_eq_fieldValue {B : Word} {b n v : Nat} (hbits : ∀ j, j < n → v.testBit j = B.getLsbD (b + j)) :
    revSum n v = fieldValue B b n := by
  rw [← fieldSum_eq_fieldValue]
  refine Finset.sum_congr rfl fun j hj => ?_
  rw [← Nat.toNat_testBit, hbits j (Finset.mem_range.mp hj)]

/-- `rev` reverses the low `n` bits and has no others (R7). -/
theorem testBit_revSum {n : Nat} (hn : n ≤ 64) (v i : Nat) :
    (revSum n v).testBit i = (decide (i < n) && v.testBit (n - 1 - i)) := by
  have hbits : ∀ j, j < n → v.testBit j = (BitVec.ofNat 64 v).getLsbD (0 + j) := fun j hj => by
    rw [Nat.zero_add, BitVec.getLsbD_ofNat, decide_eq_true (by omega), Bool.true_and]
  rw [revSum_eq_fieldValue hbits, testBit_fieldValue]
  by_cases hi : i < n
  · rw [hbits (n - 1 - i) (by omega), show 0 + n - 1 - i = 0 + (n - 1 - i) by omega]
  · simp [hi]

/-- Settles O36: bit `j` of the slice is the buffer's bit at `begin + j`. -/
theorem readFieldIsReversedSlice : Obligations.ReadFieldIsReversedSlice := by
  intro B b n hin
  rw [readField_inBounds B b n hin, revSum_eq_fieldValue]
  intro j hj
  rw [Nat.testBit_mod_two_pow, Nat.testBit_div_two_pow, Nat.add_comm j b]
  simp [hj, BitVec.getLsbD]

/-! ## The value that `write_field` takes (R66, R67) -/

theorem toNat_widen (value : Int) : (widen value).toNat = lowBits 64 value := by
  rw [lowBits, ← widen_toNat_mod value 64 le_rfl, Nat.mod_eq_of_lt (widen value).isLt]

theorem testBit_lowBits_64 (value : Int) (i : Nat) : (lowBits 64 value).testBit i = (widen value).getLsbD i := by
  rw [← toNat_widen, BitVec.getLsbD]

theorem testBit_lowBits {n : Nat} (hn : n ≤ 64) (value : Int) (i : Nat) :
    (lowBits n value).testBit i = (decide (i < n) && (widen value).getLsbD i) := by
  rw [lowBits, ← widen_toNat_mod value n hn, Nat.testBit_mod_two_pow, BitVec.getLsbD]

theorem lowBits_eq_emod (n : Nat) (value : Int) : (lowBits n value : Int) = value % 2 ^ n :=
  Int.toNat_of_nonneg (Int.emod_nonneg _ (by positivity))

/-- Truncation to `n` bits is the identity on the unsigned `n`-bit numbers, and on no other integer (R68). -/
theorem lowBits_eq_self_iff (n : Nat) (value : Int) :
    (lowBits n value : Int) = value ↔ 0 ≤ value ∧ value < 2 ^ n := by
  have hpos : (0 : Int) < 2 ^ n := by positivity
  rw [lowBits_eq_emod]
  constructor
  · intro h
    exact ⟨h ▸ Int.emod_nonneg value hpos.ne', h ▸ Int.emod_lt_of_pos value hpos⟩
  · rintro ⟨h0, hlt⟩
    exact Int.emod_eq_of_lt h0 hlt

/-- A number that was read widens to its own pattern. -/
theorem widen_natCast (v : Nat) : widen (v : Int) = BitVec.ofNat 64 v := BitVec.ofInt_natCast 64 v

/-! ## `write_field`, bit by bit (R64) -/

theorem getLsbD_depositField_inside (B v : Word) {b n i : Nat} (hin : b + n ≤ 64) (hi : i < n) :
    (depositField B b n v).getLsbD (b + n - 1 - i) = v.getLsbD i := by
  rw [getLsbD_depositField B b n v _ hin, if_pos (by omega), show b + n - 1 - (b + n - 1 - i) = i by omega]

theorem getLsbD_depositField_outside (B v : Word) {b n k : Nat} (hin : b + n ≤ 64) (hk : k < b ∨ b + n ≤ k) :
    (depositField B b n v).getLsbD k = B.getLsbD k := by
  rw [getLsbD_depositField B b n v k hin, if_neg (by omega)]

/-- A field write uses the low `n` bits of its value alone (R67). -/
theorem depositField_congr (B : Word) {b n : Nat} {v v' : Word} (hin : b + n ≤ 64)
    (hbits : ∀ i, i < n → v.getLsbD i = v'.getLsbD i) : depositField B b n v = depositField B b n v' := by
  apply BitVec.eq_of_getLsbD_eq
  intro k _
  rw [getLsbD_depositField B b n v k hin, getLsbD_depositField B b n v' k hin]
  split
  · exact hbits _ (by omega)
  · rfl

theorem writeField_congr (B : Word) {b n : Nat} {value value' : Int} (hin : b + n ≤ 64)
    (hlow : lowBits n value = lowBits n value') : writeField B b n value = writeField B b n value' := by
  rw [writeField_inBounds B b n value hin, writeField_inBounds B b n value' hin]
  refine congrArg some (depositField_congr B hin fun i hi => ?_)
  simpa [testBit_lowBits (show n ≤ 64 by omega), hi] using congrArg (Nat.testBit · i) hlow

/-- Settles O37: the second clause is the first one counted from the field's other end. -/
theorem writeFieldBits : Obligations.WriteFieldBits := by
  intro B b n value hin
  have field_bit (i : Nat) (hi : i < n) :
      (depositField B b n (widen value)).getLsbD (b + n - 1 - i) = (lowBits 64 value).testBit i := by
    rw [getLsbD_depositField_inside B _ hin hi, testBit_lowBits_64]
  refine ⟨_, writeField_inBounds B b n value hin, field_bit, fun j hj => ?_,
    fun k hk => getLsbD_depositField_outside B _ hin hk,
    fun value' hlow => (writeField_congr B hin hlow).trans (writeField_inBounds B b n value hin)⟩
  rw [← field_bit (n - 1 - j) (by omega), show b + n - 1 - (n - 1 - j) = b + j by omega]

/-! ## `write_field` in word arithmetic (R65) -/

/-- The mask of the field: ones at `b` to `b + n - 1` and nowhere else. -/
theorem testBit_fieldMask (b n k : Nat) :
    ((2 ^ n - 1) * 2 ^ b).testBit k = decide (b ≤ k ∧ k < b + n) := by
  rw [Nat.testBit_mul_two_pow, Nat.testBit_two_pow_sub_one, ← Bool.decide_and]
  exact decide_eq_decide.mpr (by omega)

theorem fieldMask_lt {b n : Nat} (hin : b + n ≤ 64) : (2 ^ n - 1) * 2 ^ b < 2 ^ 64 :=
  calc (2 ^ n - 1) * 2 ^ b < 2 ^ n * 2 ^ b :=
        Nat.mul_lt_mul_of_pos_right (Nat.sub_one_lt (Nat.two_pow_pos n).ne') (Nat.two_pow_pos b)
    _ = 2 ^ (b + n) := by rw [← Nat.pow_add, Nat.add_comm]
    _ ≤ 2 ^ 64 := Nat.pow_le_pow_right (by decide) hin

/-- A reversed value at its place in the buffer: bit `k` is the value's bit `b + n - 1 - k`. -/
theorem testBit_revSum_mul_two_pow {n : Nat} (hn : n ≤ 64) (b v k : Nat) :
    (revSum n v * 2 ^ b).testBit k = (decide (b ≤ k ∧ k < b + n) && v.testBit (b + n - 1 - k)) := by
  rw [Nat.testBit_mul_two_pow, testBit_revSum hn]
  by_cases hk : b ≤ k
  · have hplace : n - 1 - (k - b) = b + n - 1 - k := by omega
    have hoffset : k - b < n ↔ k < b + n := by omega
    simp [hk, hplace, hoffset]
  · simp [hk]

/-- Settles O38, bit by bit: inside the field the mask clears the old bit and the reversed value gives the new one,
outside it neither has a bit. -/
theorem writeFieldInWordArithmetic : Obligations.WriteFieldInWordArithmetic := by
  intro B b n value hin
  have hn : n ≤ 64 := by omega
  refine ⟨fieldMask_lt hin, ?_⟩
  rw [writeField_inBounds B b n value hin]
  refine congrArg some (BitVec.eq_of_getLsbD_eq fun k hk => ?_)
  simp only [BitVec.getLsbD_or, BitVec.getLsbD_and, BitVec.getLsbD_not, BitVec.getLsbD_ofNat, testBit_fieldMask,
    testBit_revSum_mul_two_pow hn, testBit_lowBits hn, getLsbD_depositField B b n _ k hin]
  by_cases hfield : b ≤ k ∧ k < b + n
  · have hlow : b + n - 1 - k < n := by omega
    simp [hfield, hk, hlow]
  · simp [hfield, hk]

/-! ## Reads after writes, writes after reads (R68) -/

/-- Settles O39. -/
theorem fieldsAreMutualInverses : Obligations.FieldsAreMutualInverses := by
  intro B b n hin
  refine ⟨fun value => ⟨?_, lowBits_eq_self_iff n value⟩, ?_⟩
  · rw [writeField_inBounds B b n value hin, Option.bind_some, readField_inBounds _ b n hin,
      fieldValue_depositField B b n _ hin, widen_toNat_mod value n (by omega), lowBits]
  · rw [readField_inBounds B b n hin, Option.bind_some, writeField_inBounds B b n _ hin, widen_natCast,
      depositField_fieldValue B b n hin]

/-! ## Two fields (R73) -/

/-- A write leaves the value of every field disjoint from its own. -/
theorem fieldValue_depositField_of_disjoint (B v : Word) {b n b' n' : Nat} (hin : b + n ≤ 64)
    (hdisj : b' + n' ≤ b ∨ b + n ≤ b') : fieldValue (depositField B b n v) b' n' = fieldValue B b' n' :=
  fieldValue_congr _ _ b' n' fun k _ _ => getLsbD_depositField_outside B v hin (by omega)

/-- Writes of disjoint fields commute: no bit is in both. -/
theorem depositField_comm (B v v' : Word) {b n b' n' : Nat} (hin : b + n ≤ 64) (hin' : b' + n' ≤ 64)
    (hdisj : b' + n' ≤ b ∨ b + n ≤ b') :
    depositField (depositField B b n v) b' n' v' = depositField (depositField B b' n' v') b n v := by
  apply BitVec.eq_of_getLsbD_eq
  intro k _
  simp only [getLsbD_depositField _ b n v k hin, getLsbD_depositField _ b' n' v' k hin']
  by_cases hk : b ≤ k ∧ k < b + n
  · have hk' : ¬(b' ≤ k ∧ k < b' + n') := by omega
    simp [hk, hk']
  · simp [hk]

theorem depositField_idem (B v : Word) {b n : Nat} (hin : b + n ≤ 64) :
    depositField (depositField B b n v) b n v = depositField B b n v := by
  apply BitVec.eq_of_getLsbD_eq
  intro k _
  simp only [getLsbD_depositField _ b n v k hin]
  split <;> rfl

/-- With either field out of bounds both orders fail, so disjoint writes commute without a bounds condition. -/
theorem writeField_comm (B : Word) {b n b' n' : Nat} (value value' : Int) (hdisj : b' + n' ≤ b ∨ b + n ≤ b') :
    (writeField B b n value).bind (fun C => writeField C b' n' value') =
      (writeField B b' n' value').bind (fun C => writeField C b n value) := by
  rcases Nat.lt_or_ge 64 (b + n) with hout | hin
  · simp [hout]
  · rcases Nat.lt_or_ge 64 (b' + n') with hout' | hin'
    · simp [hout']
    · simp [hin, hin', depositField_comm B _ _ hin hin' hdisj]

/-- Settles O41; the two writes that do not commute put 0 and 1 into the same one-bit field. -/
theorem frameAndOrderOfFields : Obligations.FrameAndOrderOfFields := by
  refine ⟨?_, fun B b n b' n' v v' => writeField_comm B v v', ?_, ⟨0, 0, 1, 0, 1, 0, 1, by decide⟩, ?_⟩
  · intro B C b n b' n' v hwrite hdisj
    obtain ⟨hin, rfl⟩ := writeField_eq_some_iff.mp hwrite
    simp only [readField, fieldValue_depositField_of_disjoint B _ hin hdisj]
  · intro B C D b n b' n' v v' _ hlater i hi
    obtain ⟨hin', rfl⟩ := writeField_eq_some_iff.mp hlater
    rw [getLsbD_depositField_inside C _ hin' hi, testBit_lowBits_64]
  · intro B C b n v hwrite
    obtain ⟨hin, rfl⟩ := writeField_eq_some_iff.mp hwrite
    rw [writeField_inBounds _ b n v hin, depositField_idem B _ hin]

end Sys2Proof.Machine
end

section
/-! PROOFS. The commands MASK, RDF and WRF (R70, R72, R74, R76): their words, their next states, and the field laws on
the unit. -/

namespace Sys2Proof.Machine

open Sys2Proof Sys2Proof.Safety

/-! ## The words of the field commands (R47, R49) -/

/-- The decoder answers a command on exactly one word, and only if the command has one. -/
theorem decode_eq_ok_iff {w : CommandWord} {i : Instr} :
    decode w = .ok i ↔ i.wellFormed = true ∧ w = encode i := by
  constructor
  · intro hd
    obtain ⟨hwf, he⟩ := encodeOfDecode w i hd
    exact ⟨hwf, he.symm⟩
  · rintro ⟨hwf, rfl⟩
    exact decodeOfEncode i hwf

theorem decode_eq_mask_iff {w : CommandWord} {n : Nat} :
    decode w = .ok (.mask n) ↔ n < 256 ∧ w = BitVec.ofNat 32 (0x01000000 + n * 256) := by
  rw [decode_eq_ok_iff]
  simp [Instr.wellFormed, encode, packCommand]

theorem decode_eq_rdf_iff {w : CommandWord} {b n : Nat} :
    decode w = .ok (.rdf b n) ↔ b < 256 ∧ n < 256 ∧ w = BitVec.ofNat 32 (0x02000000 + n * 256 + b) := by
  rw [decode_eq_ok_iff]
  simp [Instr.wellFormed, encode, packCommand, and_assoc]

theorem decode_eq_wrf_iff {w : CommandWord} {b n : Nat} :
    decode w = .ok (.wrf b n) ↔ b < 256 ∧ n < 256 ∧ w = BitVec.ofNat 32 (0x03000000 + n * 256 + b) := by
  rw [decode_eq_ok_iff]
  simp [Instr.wellFormed, encode, packCommand, and_assoc]

/-! ## Their next states -/

theorem exec_mask (n : Nat) (s : State) : exec (.mask n) s = execMask n s := rfl

theorem exec_rdf (b n : Nat) (s : State) : exec (.rdf b n) s = execRdf b n s := rfl

theorem exec_wrf (b n : Nat) (s : State) : exec (.wrf b n) s = execWrf b n s := rfl

/-- Settles O27. -/
theorem maskCommand : Obligations.MaskCommand := by
  refine fun n => ⟨fun w => decode_eq_mask_iff, fun s => ⟨fun hn => ?_, fun hn => ?_⟩⟩
  · rw [exec_mask, execMask_inRange n s hn]
    rfl
  · rw [exec_mask, execMask_outOfRange n s hn, raise_outOfBounds]

/-- A field in bounds has at most 64 bits, so its value fits a register. -/
theorem fieldValue_lt_register (B : Word) {b n : Nat} (hin : b + n ≤ 64) : fieldValue B b n < 2 ^ 64 :=
  (fieldValue_lt B b n).trans_le (Nat.pow_le_pow_right (by decide) (by omega))

theorem toNat_zext64_fieldValue (B : Word) {b n : Nat} (hin : b + n ≤ 64) :
    (zext64 (fieldValue B b n)).toNat = fieldValue B b n := by
  rw [zext64, BitVec.toNat_ofNat, Nat.mod_eq_of_lt (fieldValue_lt_register B hin)]

/-- Settles O28. -/
theorem rdfCommand : Obligations.RdfCommand := by
  refine fun b n => ⟨fun w => decode_eq_rdf_iff, fun s => ⟨fun hin => ?_, fun hout => ?_⟩⟩
  · rw [fieldSum_eq_fieldValue, exec_rdf, execRdf_inBounds b n s hin]
    exact ⟨fieldValue_lt_register s.buf hin, rfl⟩
  · rw [exec_rdf, execRdf_outOfBounds b n s hout, raise_outOfBounds]

/-- A write leaves every byte that shares no bit with its field. -/
theorem bufByte_depositField_outside (B v : Word) {b n j : Nat} (hin : b + n ≤ 64)
    (hj : 8 * j + 8 ≤ b ∨ b + n ≤ 8 * j) : bufByte (depositField B b n v) j = bufByte B j := by
  apply BitVec.eq_of_getLsbD_eq
  intro m hm
  rw [getLsbD_bufByte _ j m hm, getLsbD_bufByte B j m hm, getLsbD_depositField_outside B v hin (by omega)]

/-- Settles O29. -/
theorem wrfCommand : Obligations.WrfCommand := by
  refine fun b n => ⟨fun w => decode_eq_wrf_iff, fun s => ⟨fun hin => ?_, fun hout => ?_⟩⟩
  · exact ⟨depositField s.buf b n s.val, execWrf_inBounds b n s hin,
      fun i hi => getLsbD_depositField_inside s.buf s.val hin hi,
      fun k hk => getLsbD_depositField_outside s.buf s.val hin hk,
      fun j hj => bufByte_depositField_outside s.buf s.val hin hj⟩
  · rw [exec_wrf, execWrf_outOfBounds b n s hout, raise_outOfBounds]

/-! ## The field laws on the unit (R76) -/

/-- Settles O32: R68's two laws, at the states that WRF and RDF lead to. -/
theorem readAfterWriteOnUnit : Obligations.ReadAfterWriteOnUnit := by
  intro b n s hin
  refine ⟨⟨_, _, execWrf_inBounds b n s hin, execRdf_inBounds b n _ hin, ?_⟩,
    ⟨_, _, execRdf_inBounds b n s hin, execWrf_inBounds b n _ hin, ?_⟩⟩
  · exact (toNat_zext64_fieldValue _ hin).trans (fieldValue_depositField s.buf b n s.val hin)
  · exact depositField_fieldValue s.buf b n hin

end Sys2Proof.Machine
end

section
/-! PROOFS. The record layout (R82 to R84): its fields one after the other, the field of each bit index, and the byte
map. -/

namespace Sys2Proof.Machine

open Sys2Proof Sys2Proof.Safety

/-! ## The field of a bit index -/

theorem contains_iff {f : LayoutField} {k : Nat} :
    f.contains k = true ↔ f.offset ≤ k ∧ k < f.offset + f.width := by
  simp [LayoutField.contains]

theorem contains_eq_false_iff {f : LayoutField} {k : Nat} :
    f.contains k = false ↔ k < f.offset ∨ f.offset + f.width ≤ k := by
  rw [← Bool.not_eq_true, contains_iff]
  omega

/-- No bit index lies in two fields (R84). -/
theorem contains_unique {f g : LayoutField} {k : Nat} (hf : f.contains k = true) (hg : g.contains k = true) :
    f = g := by
  by_contra hne
  have hdisj := layoutField_disjoint f g hne
  rw [contains_iff] at hf hg
  omega

/-- The fields take up the record, and nothing beyond it (R82). -/
theorem exists_contains_iff {k : Nat} : (∃ f : LayoutField, f.contains k = true) ↔ k < 64 := by
  simp only [contains_iff]
  refine ⟨fun ⟨f, _, hlt⟩ => hlt.trans_le (layoutField_inBounds f), layoutField_covers k⟩

theorem fieldAt_eq_some_iff {k : Nat} {f : LayoutField} : fieldAt k = some f ↔ f.contains k = true := by
  refine ⟨fieldAt_eq_some k f, fun hf => ?_⟩
  have hsome : (fieldAt k).isSome = true := List.find?_isSome.mpr ⟨f, mem_layout f, hf⟩
  obtain ⟨g, hg⟩ := Option.isSome_iff_exists.mp hsome
  rw [hg, contains_unique (fieldAt_eq_some k g hg) hf]

theorem fieldAt_isSome_iff {k : Nat} : (fieldAt k).isSome = true ↔ k < 64 := by
  simp only [Option.isSome_iff_exists, fieldAt_eq_some_iff, exists_contains_iff]

/-- A layout field is always read (R84). -/
theorem readField_layoutField (B : Word) (f : LayoutField) :
    readField B f.offset f.width = some (recordField B f) :=
  readField_inBounds B f.offset f.width (layoutField_inBounds f)

theorem writeField_layoutField (B : Word) (f : LayoutField) (value : Int) :
    writeField B f.offset f.width value = some (depositField B f.offset f.width (widen value)) :=
  writeField_inBounds B f.offset f.width value (layoutField_inBounds f)

/-- Settles O45: the table is `layout`'s own columns; the fields cover the record and are disjoint. -/
theorem layoutPartitionsRecord : Obligations.LayoutPartitionsRecord := by
  refine ⟨rfl, fun k hk => ?_⟩
  obtain ⟨f, hf⟩ := exists_contains_iff.mpr hk
  exact ⟨f, contains_iff.mp hf, fun g hg => contains_unique (contains_iff.mpr hg) hf⟩

/-- Each field begins where the one before it in the table ends (R84). -/
theorem layout_consecutive : layout.IsChain fun f g => f.offset + f.width = g.offset := by decide

/-- Settles O55. -/
theorem layoutFieldsFollowEachOther : Obligations.LayoutFieldsFollowEachOther := by
  refine ⟨fun n f g hf hg => ?_, ⟨.lonSign, rfl, rfl⟩, ⟨.latMillisecond, rfl, rfl⟩, fun f g k => contains_unique,
    fun k f => fieldAt_eq_some_iff, fun k => fieldAt_isSome_iff, fun B f z => ?_⟩
  · obtain ⟨_, rfl⟩ := List.getElem?_eq_some_iff.mp hf
    obtain ⟨hn, rfl⟩ := List.getElem?_eq_some_iff.mp hg
    exact List.isChain_iff_getElem.mp layout_consecutive n hn
  · exact ⟨layoutField_inBounds f, readField_layoutField B f, _, writeField_layoutField B f z⟩

/-! ## Bits of a record as bits of its fields -/

theorem testBit_recordField (B : Word) (f : LayoutField) (i : Nat) :
    (recordField B f).testBit i = (decide (i < f.width) && B.getLsbD (f.offset + f.width - 1 - i)) :=
  testBit_fieldValue B f.offset f.width i

/-- A bit index is a bit of the field it lies in, the lower index the more significant (R32). -/
theorem getLsbD_eq_testBit_recordField (B : Word) {f : LayoutField} {k : Nat} (hk : f.contains k = true) :
    B.getLsbD k = (recordField B f).testBit (f.offset + f.width - 1 - k) := by
  obtain ⟨hlo, hhi⟩ := contains_iff.mp hk
  have hbit : f.offset + f.width - 1 - k < f.width := by omega
  have hback : f.offset + f.width - 1 - (f.offset + f.width - 1 - k) = k := by omega
  rw [testBit_recordField, decide_eq_true hbit, Bool.true_and, hback]

/-! ## The byte map (R84) -/

/-- The byte map gives each bit of a byte to one run, which alone determines it. -/
theorem recordByteBit_eq_run {j m : Nat} (hj : j < 8) (hm : m < 8) :
    ∃ r ∈ byteRuns j, r.contains m = true ∧ ∀ values, recordByteBit values j m = r.bit values m := by
  obtain ⟨r, hr⟩ := byteRuns_partition j m hj hm
  have hmem : r ∈ (byteRuns j).filter fun r => r.contains m := by simp [hr]
  obtain ⟨hrun, hcontains⟩ := List.mem_filter.mp hmem
  refine ⟨r, hrun, hcontains, fun values => ?_⟩
  rw [recordByteBit, ← List.any_filter, hr, List.any_cons, List.any_nil, Bool.or_false]

/-- A bit of a byte stands at the same place of the run's field as the byte map says. -/
theorem getLsbD_bufByte_eq_recordByteBit (B : Word) {j m : Nat} (hj : j < 8) (hm : m < 8) :
    (bufByte B j).getLsbD m = recordByteBit (recordField B) j m := by
  obtain ⟨r, hrun, hcontains, hbit⟩ := recordByteBit_eq_run hj hm
  obtain ⟨hlow, hhigh⟩ : r.low ≤ m ∧ m < r.low + r.length := by simpa [ByteRun.contains] using hcontains
  obtain ⟨hoffset, hend⟩ := byteRun_place j r hrun
  have hfield : r.field.contains (8 * j + m) = true := contains_iff.mpr (by omega)
  have hplace : r.field.offset + r.field.width - 1 - (8 * j + m) = r.valueLow + (r.low + r.length - 1 - m) := by omega
  rw [hbit, ByteRun.bit, getLsbD_bufByte B j m hm, getLsbD_eq_testBit_recordField B hfield, hplace]

end Sys2Proof.Machine
end

section
/-! PROOFS. `encode` (R85, R87, R92): what an encoded record holds in each field, the order of the ten writes, and which
bits an input reaches. -/

namespace Sys2Proof.Machine

open Sys2Proof Sys2Proof.Safety

/-! ## The fields of an encoded record -/

/-- A field of an encoded record is its input cut to the field's width (R87). -/
theorem recordField_encodePoint_eq_lowBits (p : GeoPoint) (f : LayoutField) :
    recordField (encodePoint p) f = lowBits f.width (encodeInput p f) := by
  have hwidth : f.width ≤ 64 := (layoutField_width_le f).trans (by decide)
  rw [recordField_encodePoint, widen_toNat_mod _ _ hwidth, lowBits]

/-- Settles O56: the byte map holds for every record, so for an encoded one, whose fields are the inputs cut to their
widths. -/
theorem recordBytesHoldTheirRuns : Obligations.RecordBytesHoldTheirRuns := by
  refine ⟨fun B j m => getLsbD_bufByte_eq_recordByteBit B, fun p j m hj hm => ?_⟩
  rw [getLsbD_bufByte_eq_recordByteBit _ hj hm, funext (recordField_encodePoint_eq_lowBits p)]
  rfl

/-- Bit `i` of an input, for each of the field's bits, counted from the field's last index. -/
theorem getLsbD_encodePoint (p : GeoPoint) (f : LayoutField) {i : Nat} (hi : i < f.width) :
    (encodePoint p).getLsbD (f.offset + f.width - 1 - i) = (widen (encodeInput p f)).getLsbD i := by
  have hbit := testBit_recordField (encodePoint p) f i
  rw [recordField_encodePoint, Nat.testBit_mod_two_pow, decide_eq_true hi, Bool.true_and, Bool.true_and] at hbit
  exact hbit.symm

/-! ## The order of the writes (R85) -/

/-- The row of R85's list that writes a field. -/
def encodeRow (p : GeoPoint) (f : LayoutField) : Nat × Nat × Int := (f.offset, f.width, encodeInput p f)

theorem encodeRows_eq_map (p : GeoPoint) : encodeRows p = layout.map (encodeRow p) := by
  simp [encodeRows, layout, encodeRow, encodeInput, signBit, LayoutField.offset, LayoutField.width]

theorem writeField_encodeRow (p : GeoPoint) (f : LayoutField) (B : Word) :
    writeField B (encodeRow p f).1 (encodeRow p f).2.1 (encodeRow p f).2.2 = some (depositRow p B f) :=
  writeField_layoutField B f (encodeInput p f)

/-- Writing rows never fails, since every row's field is in bounds. -/
theorem foldlM_writeField_map_encodeRow (p : GeoPoint) (fields : List LayoutField) (start : Word) :
    (fields.map (encodeRow p)).foldlM (m := Option) (fun (B : Word) r => writeField B r.1 r.2.1 r.2.2) start =
      some (fields.foldl (depositRow p) start) := by
  induction fields generalizing start with
  | nil => rfl
  | cons f rest ih => simp [writeField_encodeRow, ih]

/-- When every field is written, in whatever order, the record is the encoded one: nothing of the start is left. -/
theorem foldl_depositRow_eq_encodePoint (p : GeoPoint) {fields : List LayoutField} (hall : ∀ f, f ∈ fields)
    (start : Word) : fields.foldl (depositRow p) start = encodePoint p := by
  refine eq_of_recordField_eq _ _ fun f => ?_
  rw [recordField_foldl, if_pos (hall f), recordField_encodePoint]

/-- Settles O46: rows in another order are the rows of the fields in another order. -/
theorem encodeWritesRowsInAnyOrder : Obligations.EncodeWritesRowsInAnyOrder := by
  intro p rows start hperm
  have hrows : List.Forall₂ (fun r f => r = encodeRow p f) (layout.map (encodeRow p)) layout := by
    simp [List.forall₂_map_left_iff, List.forall₂_same]
  obtain ⟨fields, hfields, hlayout⟩ := List.perm_comp_forall₂ (encodeRows_eq_map p ▸ hperm) hrows
  obtain rfl : rows = fields.map (encodeRow p) := by
    rwa [← List.forall₂_eq_eq_eq, List.forall₂_map_right_iff]
  rw [foldlM_writeField_map_encodeRow, foldl_depositRow_eq_encodePoint p fun f => hlayout.mem_iff.mpr (mem_layout f)]

/-! ## Which bits an input reaches (R92) -/

/-- A bit of an encoded record depends on the input of the bit's own field alone. -/
theorem getLsbD_encodePoint_congr {p q : GeoPoint} {k : Nat}
    (hsame : ∀ f : LayoutField, f.contains k = true → encodeInput p f = encodeInput q f) :
    (encodePoint p).getLsbD k = (encodePoint q).getLsbD k := by
  by_cases hk : k < 64
  · obtain ⟨f, hf⟩ := exists_contains_iff.mpr hk
    simp only [getLsbD_eq_testBit_recordField _ hf, recordField_encodePoint, hsame f hf]
  · rw [BitVec.getLsbD_of_ge _ k (by omega), BitVec.getLsbD_of_ge _ k (by omega)]

/-- Bits outside the fields whose inputs changed stay. -/
theorem getLsbD_encodePoint_of_outside {p q : GeoPoint} {k : Nat} (changed : List LayoutField)
    (hout : ∀ f ∈ changed, k < f.offset ∨ f.offset + f.width ≤ k)
    (hsame : ∀ f, f ∉ changed → encodeInput p f = encodeInput q f) :
    (encodePoint p).getLsbD k = (encodePoint q).getLsbD k := by
  refine getLsbD_encodePoint_congr fun f hf => hsame f fun hmem => ?_
  rw [contains_eq_false_iff.mpr (hout f hmem)] at hf
  cases hf

/-- Settles O51: a coordinate is the input of two neighbouring fields, a time component of one. -/
theorem fieldIndependence : Obligations.FieldIndependence := by
  intro p x k
  have coordinate {sign magnitude : LayoutField} (hsign : k < sign.offset ∨ sign.offset + sign.width ≤ k)
      (hmagnitude : k < magnitude.offset ∨ magnitude.offset + magnitude.width ≤ k) :
      ∀ f ∈ [sign, magnitude], k < f.offset ∨ f.offset + f.width ≤ k :=
    List.forall_mem_cons.mpr ⟨hsign, List.forall_mem_singleton.mpr hmagnitude⟩
  refine ⟨fun hk => getLsbD_encodePoint_of_outside [.lonMillisecond] (List.forall_mem_singleton.mpr hk) ?_,
    fun hk => getLsbD_encodePoint_of_outside [.lonSign, .lonMagnitude]
      (coordinate (.inr (show 1 ≤ k by omega)) (.inr hk)) ?_,
    fun hk => getLsbD_encodePoint_of_outside [.lonMinute] (List.forall_mem_singleton.mpr hk) ?_,
    fun hk => getLsbD_encodePoint_of_outside [.lonSecond] (List.forall_mem_singleton.mpr hk) ?_,
    fun hk => getLsbD_encodePoint_of_outside [.latSign, .latMagnitude]
      (coordinate (show k < 33 ∨ 34 ≤ k by omega) (show k < 34 ∨ 41 ≤ k by omega)) ?_,
    fun hk => getLsbD_encodePoint_of_outside [.latMinute] (List.forall_mem_singleton.mpr hk) ?_,
    fun hk => getLsbD_encodePoint_of_outside [.latSecond] (List.forall_mem_singleton.mpr hk) ?_,
    fun hk => getLsbD_encodePoint_of_outside [.latMillisecond] (List.forall_mem_singleton.mpr hk) ?_⟩
  all_goals intro f hf; cases f <;> simp [encodeInput] at hf ⊢

end Sys2Proof.Machine
end

section
/-! PROOFS. `decode` and the round trips of the codec (R88 to R91). -/

namespace Sys2Proof.Machine

open Sys2Proof Sys2Proof.Safety

/-! ## `decode` and its range -/

/-- Settles O47: each row of the rule is a layout field. -/
theorem decodeReadsRows : Obligations.DecodeReadsRows := fun B =>
  have row := readField_layoutField B
  ⟨_, _, _, _, _, _, _, _, _, _, row .lonSign, row .lonMagnitude, row .lonMinute, row .lonSecond, row .lonMillisecond,
    row .latSign, row .latMagnitude, row .latMinute, row .latSecond, row .latMillisecond, rfl⟩

theorem natAbs_signedOf (sign magnitude : Nat) : (signedOf sign magnitude).natAbs = magnitude := by
  unfold signedOf
  split <;> simp

/-- Settles O48: a magnitude and a time component are field values, so below two to the field's width. -/
theorem decodeRange : Obligations.DecodeRange := by
  intro B
  have coordinate_range {sign magnitude bound : Nat} (hlt : magnitude < bound + 1) :
      -(bound : Int) ≤ signedOf sign magnitude ∧ signedOf sign magnitude ≤ bound := by
    have habs := natAbs_signedOf sign magnitude
    omega
  have time_range {v bound : Nat} (hlt : v < bound) : 0 ≤ (v : Int) ∧ (v : Int) < bound := by omega
  exact ⟨coordinate_range (recordField_lt B .lonMagnitude), coordinate_range (recordField_lt B .latMagnitude),
    time_range (recordField_lt B .lonMinute), time_range (recordField_lt B .lonSecond),
    time_range (recordField_lt B .lonMillisecond), time_range (recordField_lt B .latMinute),
    time_range (recordField_lt B .latSecond), time_range (recordField_lt B .latMillisecond)⟩

/-! ## Decoding an encoded point (R90) -/

/-- A coordinate through its sign bit and its `n`-bit magnitude. -/
theorem signedOf_lowBits (n : Nat) (c : Int) :
    signedOf (lowBits 1 (signBit c)) (lowBits n c.natAbs) = truncateCoordinate n c := by
  have hmagnitude : (lowBits n c.natAbs : Int) = |c| % 2 ^ n := by rw [lowBits_eq_emod, Int.natCast_natAbs]
  have hsign : lowBits 1 (signBit c) = if c < 0 then 0 else 1 := by unfold signBit; split <;> rfl
  unfold signedOf truncateCoordinate
  rw [hsign, hmagnitude]
  split <;> rfl

theorem truncateCoordinate_eq_self {n : Nat} {c : Int} (h : |c| < 2 ^ n) : truncateCoordinate n c = c := by
  unfold truncateCoordinate
  rw [Int.emod_eq_of_lt (abs_nonneg c) h]
  split
  case isTrue hneg => rw [abs_of_neg hneg, neg_neg]
  case isFalse hnonneg => exact abs_of_nonneg (not_lt.mp hnonneg)

theorem truncatePoint_eq_self {p : GeoPoint} (h : InRange p) : truncatePoint p = p := by
  obtain ⟨hlon, hlat, hlonmin, hlonsec, hlonms, hlatmin, hlatsec, hlatms⟩ := h
  have hlonAbs : |p.longitude| < 2 ^ 8 := abs_lt.mpr (by omega)
  have hlatAbs : |p.latitude| < 2 ^ 7 := abs_lt.mpr (by omega)
  have fits (n : Nat) {x : Int} (hx : 0 ≤ x ∧ x < 2 ^ n) : x % 2 ^ n = x := Int.emod_eq_of_lt hx.1 hx.2
  rw [truncatePoint, truncateCoordinate_eq_self hlonAbs, truncateCoordinate_eq_self hlatAbs, fits 6 hlonmin,
    fits 6 hlonsec, fits 12 hlonms, fits 6 hlatmin, fits 6 hlatsec, fits 11 hlatms]

theorem decodeRecord_encodePoint (p : GeoPoint) : decodeRecord (encodePoint p) = truncatePoint p := by
  simp only [decodeRecord, recordField_encodePoint_eq_lowBits, encodeInput, LayoutField.width, signedOf_lowBits,
    lowBits_eq_emod, truncatePoint]

/-- Settles O49: each field holds its input's low bits, and within the bounds truncation is the identity. -/
theorem roundTripOfPoint : Obligations.RoundTripOfPoint := fun p =>
  ⟨decodeRecord_encodePoint p, fun h => (decodeRecord_encodePoint p).trans (truncatePoint_eq_self h)⟩

/-! ## Negative zeros (R91) -/

theorem fieldValue_eq_zero_iff {B : Word} {b n : Nat} :
    fieldValue B b n = 0 ↔ ∀ k, b ≤ k → k < b + n → B.getLsbD k = false := by
  constructor
  · intro hzero k hlo hhi
    have hbit := testBit_fieldValue B b n (b + n - 1 - k)
    have hlt : b + n - 1 - k < n := by omega
    have hback : b + n - 1 - (b + n - 1 - k) = k := by omega
    rw [hzero, Nat.zero_testBit, decide_eq_true hlt, Bool.true_and, hback] at hbit
    exact hbit.symm
  · intro hclear
    refine Nat.eq_of_testBit_eq fun i => ?_
    rw [testBit_fieldValue, Nat.zero_testBit]
    by_cases hi : i < n
    · rw [hclear _ (by omega) (by omega), Bool.and_false]
    · rw [decide_eq_false hi, Bool.false_and]

/-- Two neighbouring fields are both 0 exactly when the field they make up is. -/
theorem fieldValue_add_eq_zero_iff {B : Word} {b n m : Nat} :
    fieldValue B b (n + m) = 0 ↔ fieldValue B b n = 0 ∧ fieldValue B (b + n) m = 0 := by
  simp only [fieldValue_eq_zero_iff]
  refine ⟨fun h => ⟨fun k _ _ => h k (by omega) (by omega), fun k _ _ => h k (by omega) (by omega)⟩,
    fun ⟨hfirst, hsecond⟩ k _ _ => ?_⟩
  by_cases hk : k < b + n
  · exact hfirst k (by omega) hk
  · exact hsecond k (by omega) (by omega)

/-- A field is 0 exactly when the word has no bit of the field's mask. -/
theorem and_fieldMask_eq_zero_iff {B : Word} {b n : Nat} (hin : b + n ≤ 64) :
    B &&& BitVec.ofNat 64 ((2 ^ n - 1) * 2 ^ b) = 0 ↔ fieldValue B b n = 0 := by
  have masked_bit (k : Nat) (hk : k < 64) : (B &&& BitVec.ofNat 64 ((2 ^ n - 1) * 2 ^ b)).getLsbD k =
      (B.getLsbD k && decide (b ≤ k ∧ k < b + n)) := by
    rw [BitVec.getLsbD_and, BitVec.getLsbD_ofNat, testBit_fieldMask, decide_eq_true hk, Bool.true_and]
  rw [fieldValue_eq_zero_iff]
  constructor
  · intro hzero k hlo hhi
    simpa [hzero, hlo, hhi] using masked_bit k (by omega)
  · intro hclear
    refine BitVec.eq_of_getLsbD_eq fun k hk => ?_
    rw [masked_bit k hk, BitVec.ofNat_eq_ofNat, BitVec.getLsbD_zero]
    by_cases hfield : b ≤ k ∧ k < b + n
    · rw [hclear k hfield.1 hfield.2, Bool.false_and]
    · rw [decide_eq_false hfield, Bool.and_false]

theorem lonNegativeZero_iff {B : Word} :
    LonNegativeZero B ↔ recordField B .lonSign = 0 ∧ recordField B .lonMagnitude = 0 :=
  (and_fieldMask_eq_zero_iff (b := 0) (n := 9) (by decide)).trans (fieldValue_add_eq_zero_iff (n := 1) (m := 8))

theorem latNegativeZero_iff {B : Word} :
    LatNegativeZero B ↔ recordField B .latSign = 0 ∧ recordField B .latMagnitude = 0 :=
  (and_fieldMask_eq_zero_iff (b := 33) (n := 8) (by decide)).trans (fieldValue_add_eq_zero_iff (n := 1) (m := 7))

theorem recordField_or (B C : Word) (f : LayoutField) :
    recordField (B ||| C) f = recordField B f ||| recordField C f := by
  refine Nat.eq_of_testBit_eq fun i => ?_
  simp only [Nat.testBit_or, testBit_recordField, BitVec.getLsbD_or, Bool.and_or_distrib_left]

theorem recordField_ite_zero (P : Prop) [Decidable P] (C : Word) (f : LayoutField) :
    recordField (if P then C else 0) f = if P then recordField C f else 0 := by
  split
  · rfl
  · cases f <;> rfl

theorem recordField_lonSignMask (f : LayoutField) : recordField 0x1 f = if f = .lonSign then 1 else 0 := by
  cases f <;> rfl

theorem recordField_latSignMask (f : LayoutField) : recordField 0x200000000 f = if f = .latSign then 1 else 0 := by
  cases f <;> rfl

/-- The sign bit that a decoded coordinate is encoded with: the one it came from, but 1 for a negative zero. -/
theorem lowBits_signBit_signedOf {sign magnitude : Nat} (hsign : sign < 2) :
    lowBits 1 (signBit (signedOf sign magnitude)) = sign ||| if sign = 0 ∧ magnitude = 0 then 1 else 0 := by
  rcases Nat.le_one_iff_eq_zero_or_eq_one.mp (Nat.le_of_lt_succ hsign) with rfl | rfl
  · rcases Nat.eq_zero_or_pos magnitude with rfl | hpos
    · rfl
    · simp [signedOf, signBit, hpos, hpos.ne', lowBits]
  · have hnonneg : ¬(magnitude : Int) < 0 := by omega
    simp [signedOf, signBit, hnonneg, lowBits]

/-- A field's value is not cut by its own width. -/
theorem lowBits_recordField (B : Word) (f : LayoutField) : lowBits f.width (recordField B f) = recordField B f := by
  have hlt : (recordField B f : Int) < 2 ^ f.width := by exact_mod_cast recordField_lt B f
  exact Int.ofNat_inj.mp ((lowBits_eq_self_iff _ _).mpr ⟨Int.natCast_nonneg _, hlt⟩)

/-- Re-encoding, field by field: only the two sign fields can change (R91). -/
theorem recordField_encodePoint_decodeRecord (B : Word) (f : LayoutField) :
    recordField (encodePoint (decodeRecord B)) f = recordField B f |||
      (if LonNegativeZero B ∧ f = .lonSign ∨ LatNegativeZero B ∧ f = .latSign then 1 else 0) := by
  simp only [recordField_encodePoint_eq_lowBits, lonNegativeZero_iff, latNegativeZero_iff]
  cases f with
  | lonSign | latSign =>
    simpa [encodeInput, decodeRecord, LayoutField.width] using lowBits_signBit_signedOf (recordField_lt B _)
  | lonMagnitude | latMagnitude =>
    simp [encodeInput, decodeRecord, natAbs_signedOf, lowBits_recordField]
  | _ => simp [encodeInput, decodeRecord, lowBits_recordField]

theorem encodePoint_decodeRecord (B : Word) : encodePoint (decodeRecord B) =
    B ||| (if LonNegativeZero B then 0x1 else 0) ||| (if LatNegativeZero B then 0x200000000 else 0) := by
  refine eq_of_recordField_eq _ _ fun f => ?_
  rw [recordField_encodePoint_decodeRecord, recordField_or, recordField_or, recordField_ite_zero, recordField_ite_zero,
    recordField_lonSignMask, recordField_latSignMask]
  cases f <;> simp

theorem encodePoint_decodeRecord_eq_self_iff (B : Word) :
    encodePoint (decodeRecord B) = B ↔ ¬LonNegativeZero B ∧ ¬LatNegativeZero B := by
  constructor
  · intro heq
    have hfield (f : LayoutField) := recordField_encodePoint_decodeRecord B f
    simp only [heq] at hfield
    refine ⟨fun hlon => ?_, fun hlat => ?_⟩
    · have hsign := hfield .lonSign
      rw [if_pos (.inl ⟨hlon, rfl⟩), (lonNegativeZero_iff.mp hlon).1] at hsign
      cases hsign
    · have hsign := hfield .latSign
      rw [if_pos (.inr ⟨hlat, rfl⟩), (latNegativeZero_iff.mp hlat).1] at hsign
      cases hsign
  · rintro ⟨hlon, hlat⟩
    simp [encodePoint_decodeRecord, hlon, hlat]

/-- Settles O50; the two records that decode alike differ in the sign bit of the longitude 0. -/
theorem negativeZeroReencodes : Obligations.NegativeZeroReencodes :=
  ⟨encodePoint_decodeRecord, encodePoint_decodeRecord_eq_self_iff, 0, 1, by decide⟩

end Sys2Proof.Machine
end

section
/-! PROOFS. The commands ENC and DEC (R93 to R96): their words, registers as integers, their next states, and the
round trips on the unit. -/

namespace Sys2Proof.Machine

open Sys2Proof Sys2Proof.Safety

theorem decode_eq_enc_iff {w : CommandWord} : decode w = .ok .enc ↔ w = 0x04000000 := by
  rw [decode_eq_ok_iff]
  simp [Instr.wellFormed, encode, packCommand]

theorem decode_eq_dec_iff {w : CommandWord} : decode w = .ok .dec ↔ w = 0x05000000 := by
  rw [decode_eq_ok_iff]
  simp [Instr.wellFormed, encode, packCommand]

theorem exec_enc (s : State) : exec .enc s = .next (respond .ok (setBuf (encodePoint (pointOf s)) s)) := rfl

theorem exec_dec (s : State) : exec .dec s = .next (respond .ok (setPoint (decodeRecord s.buf) s)) := rfl

/-! ## Registers as integers (R7, R15, R94) -/

theorem signed64_neg_iff (r : Word) : signed64 r < 0 ↔ r.getLsbD 63 = true := by
  rw [signed64, ← BitVec.msb_eq_getLsbD_last (w := 64) r, BitVec.msb_eq_toInt, decide_eq_true_iff]

theorem natAbs_signed64 (r : Word) : (signed64 r).natAbs = (if r.getLsbD 63 then -r else r).toNat := by
  have hr := r.isLt
  rw [signed64, BitVec.toInt_eq_msb_cond, BitVec.msb_eq_getLsbD_last]
  cases hsign : r.getLsbD 63 with
  | false => simp
  | true =>
    have hlarge : 2 ^ 63 ≤ r.toNat := BitVec.le_toNat_of_msb_true (by rw [BitVec.msb_eq_getLsbD_last]; exact hsign)
    simp only [if_true, BitVec.toNat_neg]
    omega

theorem natAbs_signed64_le (r : Word) : (signed64 r).natAbs ≤ 2 ^ 63 := by
  have hr := r.isLt
  rw [signed64, BitVec.toInt_eq_toNat_cond]
  split <;> omega

theorem signed64_sext64 {z : Int} (h : -2 ^ 63 ≤ z ∧ z < 2 ^ 63) : signed64 (sext64 z) = z :=
  BitVec.toInt_ofInt_eq_self (by decide) h.1 h.2

theorem toNat_sext64 {z : Int} (h : 0 ≤ z ∧ z < 2 ^ 64) : ((sext64 z).toNat : Int) = z := by
  rw [sext64, BitVec.toNat_ofInt]
  omega

/-- Widening undoes the reading of a register as a signed number. -/
theorem widen_signed64 (r : Word) : widen (signed64 r) = r := BitVec.ofInt_toInt

/-- ENC takes the low bits of its inputs, so it cannot tell numbers that widen alike (R66). -/
theorem encodePoint_congr {p q : GeoPoint} (h : ∀ f, widen (encodeInput p f) = widen (encodeInput q f)) :
    encodePoint p = encodePoint q := by
  refine eq_of_recordField_eq _ _ fun f => ?_
  rw [recordField_encodePoint, recordField_encodePoint, h f]

/-- Settles O52: signed and unsigned readings of a time register widen alike, and the coordinates are the same. -/
theorem coordinatesAreTwosComplement : Obligations.CoordinatesAreTwosComplement := by
  refine ⟨fun r => ⟨signed64_neg_iff r, natAbs_signed64 r, natAbs_signed64_le r⟩, fun s => ?_⟩
  rw [exec_enc, respond, setBuf]
  have widen_alike (r : Word) : widen r.toNat = widen (signed64 r) := by rw [widen_toNat, widen_signed64]
  rw [encodePoint_congr]
  intro f
  cases f <;> simp only [encodeInput, pointOf, widen_alike]

/-! ## ENC and DEC -/

theorem getLsbD_encodePoint_natCast (p : GeoPoint) (f : LayoutField) {v : Nat} (hv : encodeInput p f = v) (i : Nat)
    (hi : i < f.width) : (encodePoint p).getLsbD (f.offset + f.width - 1 - i) = v.testBit i := by
  have hi64 : i < 64 := hi.trans_le ((layoutField_width_le f).trans (by decide))
  rw [getLsbD_encodePoint p f hi, hv, widen_natCast, BitVec.getLsbD_ofNat, decide_eq_true hi64, Bool.true_and]

/-- A field whose input is a sign bit has the sign in its last bit (R86). -/
theorem getLsbD_encodePoint_signBit (p : GeoPoint) (f : LayoutField) {c : Int} (hc : encodeInput p f = signBit c)
    (hwidth : 0 < f.width) : (encodePoint p).getLsbD (f.offset + f.width - 1) = decide (0 ≤ c) := by
  have hcast : signBit c = ((decide (0 ≤ c)).toNat : Int) := by
    by_cases hneg : c < 0
    · simp [signBit, hneg, hneg.not_ge]
    · simp [signBit, hneg, not_lt.mp hneg]
  refine (getLsbD_encodePoint_natCast p f (hc.trans hcast) 0 hwidth).trans ?_
  cases decide (0 ≤ c) <;> rfl

/-- Settles O30. -/
theorem encCommand : Obligations.EncCommand := by
  refine ⟨fun w => decode_eq_enc_iff, fun s => ⟨encodePoint (pointOf s), exec_enc s, ?_⟩⟩
  exact ⟨getLsbD_encodePoint_signBit _ .lonSign rfl (by decide), getLsbD_encodePoint_natCast _ .lonMagnitude rfl,
    getLsbD_encodePoint_natCast _ .lonMinute rfl, getLsbD_encodePoint_natCast _ .lonSecond rfl,
    getLsbD_encodePoint_natCast _ .lonMillisecond rfl, getLsbD_encodePoint_signBit _ .latSign rfl (by decide),
    getLsbD_encodePoint_natCast _ .latMagnitude rfl, getLsbD_encodePoint_natCast _ .latMinute rfl,
    getLsbD_encodePoint_natCast _ .latSecond rfl, getLsbD_encodePoint_natCast _ .latMillisecond rfl⟩

/-- Settles O31: the sums of R62 are the field values; a field value is not negative, so its sign extension is its
zero extension. -/
theorem decCommand : Obligations.DecCommand := by
  refine ⟨fun w => decode_eq_dec_iff, fun s => ?_⟩
  have sext64_natCast (v : Nat) : sext64 v = BitVec.ofNat 64 v := BitVec.ofInt_natCast 64 v
  simp only [exec_dec, respond, setPoint, decodeRecord, sext64_natCast, fieldSum_eq_fieldValue]
  rfl

/-! ## Round trips on the unit (R96) -/

/-- The registers hold every point in range: DEC's writes lose nothing (R95). -/
theorem pointOf_setPoint {p : GeoPoint} (h : InRange p) (s : State) : pointOf (setPoint p s) = p := by
  obtain ⟨hlon, hlat, hlonmin, hlonsec, hlonms, hlatmin, hlatsec, hlatms⟩ := h
  have signed_eq {z : Int} (hz : -255 ≤ z ∧ z ≤ 255) : signed64 (sext64 z) = z := signed64_sext64 (by omega)
  have unsigned_eq {z : Int} (hz : 0 ≤ z ∧ z < 4096) : ((sext64 z).toNat : Int) = z := toNat_sext64 (by omega)
  simp only [pointOf, setPoint]
  rw [signed_eq hlon, signed_eq (by omega), unsigned_eq (by omega), unsigned_eq (by omega), unsigned_eq hlonms,
    unsigned_eq (by omega), unsigned_eq (by omega), unsigned_eq (by omega)]

theorem pointOf_exec_dec {s t : State} (h : exec .dec s = .next t) : pointOf t = decodeRecord s.buf := by
  cases h
  exact pointOf_setPoint (decodeRange s.buf) s

/-- Different register patterns stand for different points. -/
theorem samePoint_of_pointOf_eq {s t : State} (h : pointOf t = pointOf s) : SamePoint s t := by
  simp only [pointOf, GeoPoint.mk.injEq, TimeOfFix.mk.injEq, Int.natCast_inj] at h
  obtain ⟨hlat, ⟨hlatmin, hlatsec, hlatms⟩, hlon, hlonmin, hlonsec, hlonms⟩ := h
  exact ⟨BitVec.eq_of_toInt_eq hlon, BitVec.eq_of_toNat_eq hlonmin, BitVec.eq_of_toNat_eq hlonsec,
    BitVec.eq_of_toNat_eq hlonms, BitVec.eq_of_toInt_eq hlat, BitVec.eq_of_toNat_eq hlatmin,
    BitVec.eq_of_toNat_eq hlatsec, BitVec.eq_of_toNat_eq hlatms⟩

/-- A decoded record without a negative zero is encoded as itself. -/
theorem encodePoint_pointOf_exec_dec {s t : State} (h : exec .dec s = .next t) (hlon : ¬LonNegativeZero s.buf)
    (hlat : ¬LatNegativeZero s.buf) : encodePoint (pointOf t) = s.buf := by
  rw [pointOf_exec_dec h]
  exact (encodePoint_decodeRecord_eq_self_iff s.buf).mpr ⟨hlon, hlat⟩

/-- Settles O33: the round trips of the codec (R90, R91), since DEC's registers hold the decoded point whole. -/
theorem roundTripOnUnit : Obligations.RoundTripOnUnit := by
  refine ⟨fun s => ?_, fun s => ⟨_, _, exec_dec s, exec_enc _, encodePoint_pointOf_exec_dec (exec_dec s)⟩⟩
  refine ⟨_, _, _, exec_enc s, exec_dec _, exec_enc _, ?_⟩
  have hdecoded := (pointOf_exec_dec (exec_dec (respond .ok (setBuf (encodePoint (pointOf s)) s)))).trans
    (decodeRecord_encodePoint (pointOf s))
  exact ⟨hdecoded, fun hrange => samePoint_of_pointOf_eq (hdecoded.trans (truncatePoint_eq_self hrange)),
    encodePoint_pointOf_exec_dec (exec_dec _)⟩

end Sys2Proof.Machine
end

section
/-! PROOFS. Exceptions (60_exceptions.md): fault entry (R105), the order of the tests (R106), nothing partial (R107), the
faulted state and the way out of it (R108, R109), and a step without an action (R116). -/

namespace Sys2Proof.Machine

open Sys2Proof Sys2Proof.Safety

/-- Settles O8: there is no next action to take, so the step is `idle`. -/
theorem stepWithoutActionHolds : Obligations.StepWithoutActionHolds := by
  intro s hp
  simp [step, nextAction, hp, idle]

/-! ## The faulted unit -/

/-- All that an action other than Reset can do on a faulted unit: be refused, or read a defined register (R105, R106). -/
theorem perform_of_faulted {a : Action} {s t : State} (hf : s.faulted = true) (ha : a ≠ .reset)
    (h : perform a s = .next t) :
    t = respond .refused s ∨
    ∃ n r, a = .hostRead n ∧ regOfNumber n = some r ∧ t = { s with reply := .value (readReg r s) } := by
  cases perform_effect h with
  | reset => exact absurd rfl ha
  | refused => exact .inl rfl
  | read hr => exact .inr ⟨_, _, rfl, hr, rfl⟩
  | raised _ _ hready | wrote hready | completed hready => simp [hf] at hready

/-- The faulted state is kept by every action but Reset (R108). -/
theorem sameUnit_of_faulted {a : Action} {s t : State} (hf : s.faulted = true) (ha : a ≠ .reset)
    (h : perform a s = .next t) : SameUnit s t := by
  rcases perform_of_faulted hf ha h with rfl | ⟨_, _, -, -, rfl⟩ <;> simp [SameUnit, SameData]

/-- Settles O16: what fault entry writes is said by the laws of `raise`; a faulted unit only refuses and reads. -/
theorem faultEntryRecordsAndKeeps : Obligations.FaultEntryRecordsAndKeeps := by
  refine ⟨fun f s => ⟨raise_faulted f s, raise_cause f s, congrArg some f.response_code, by simp [SameData], rfl, rfl⟩, ?_⟩
  intro a s t hf ha h
  rcases perform_of_faulted hf ha h with rfl | ⟨n, r, -, -, rfl⟩
  · exact ⟨rfl, .inr rfl⟩
  · exact ⟨rfl, .inl rfl⟩

/-- Settles O20: a step is its first pending action, which keeps a faulted unit unless it is Reset. -/
theorem faultedUntilReset : Obligations.FaultedUntilReset := by
  refine ⟨fun s t hf h hnoReset => ?_, fun s t rest hp h => ?_⟩
  · rcases step_cases h with ⟨-, rfl⟩ | ⟨a, rest, hp, hperform⟩
    · simp [SameUnit, SameData]
    · have ha : a ≠ .reset := fun hreset => hnoReset rest (hreset ▸ hp)
      exact sameUnit_of_faulted (s := { s with pending := rest }) hf ha hperform
  · rw [stepPerformsNextAction s .reset rest hp] at h
    cases h
    exact resetUnit_faulted _

/-! ## Nothing partial -/

/-- Settles O19: REFUSED and the three faults are the only answers but OK, and each leaves the data registers. -/
theorem nothingPartial : Obligations.NothingPartial := by
  intro a s t ha h hnotOk
  cases perform_effect h with
  | reset => exact absurd rfl ha
  | refused => simp [SameData]
  | raised _ f => exact ⟨by simp [SameData], fun hrefused => absurd (Reply.answer.inj hrefused) f.response_ne_refused⟩
  | read | wrote => exact absurd rfl hnotOk
  | completed _ _ _ hok => exact absurd (congrArg Reply.response hok) hnotOk

/-! ## The order of the tests on a unit that is not faulted -/

theorem writeReg_eq_none_iff {r : Reg} {v : Word} {s : State} : writeReg r v s = none ↔ r = .res ∨ r = .status := by
  cases r <;> simp [writeReg]

/-- RES, STATUS and the undefined numbers are those the host may not write (R19). -/
theorem notWritable_number_iff :
    ∀ n : Fin 16, (∀ r ∈ regOfNumber n, r = .res ∨ r = .status) ↔ n = 2 ∨ 11 ≤ n.val := by decide

theorem bind_writeReg_eq_none_iff {n : Fin 16} {v : Word} {s : State} :
    ((regOfNumber n).bind fun r => writeReg r v s) = none ↔ n = 2 ∨ 11 ≤ n.val := by
  simp only [← notWritable_number_iff, Option.bind_eq_none_iff, writeReg_eq_none_iff, Option.mem_def]

theorem hostWrite_response {s : State} (hf : s.faulted = false) (n : Fin 16) (v : Word) :
    (hostWrite n v s).reply.response = some (if n = 2 ∨ 11 ≤ n.val then .illegalAccess else .ok) := by
  split
  case isTrue hn =>
    rw [hostWrite_notWritable hf (bind_writeReg_eq_none_iff.mpr hn)]
    rfl
  case isFalse hn =>
    obtain ⟨t, ht⟩ := Option.ne_none_iff_exists'.mp (mt (bind_writeReg_eq_none_iff (v := v) (s := s)).mp hn)
    obtain ⟨r, hr, hw⟩ := Option.bind_eq_some_iff.mp ht
    rw [hostWrite_accepted hf hr hw]
    rfl

theorem hostRead_response {s : State} (hf : s.faulted = false) (n : Fin 16) :
    (hostRead n s).reply.response = some (if 12 ≤ n.val then .illegalAccess else .ok) := by
  simp only [← regOfNumber_eq_none_iff]
  cases hr : regOfNumber n with
  | none => simp [hostRead_undefined hr, hf, Reply.response, Fault.response]
  | some r => simp [hostRead_defined hr, Reply.response]

/-- The responses of an Issue, by whether its word decodes (R50). -/
theorem issue_response {w : CommandWord} {s t : State} (hf : s.faulted = false) (h : issue w s = .next t) :
    ((∃ e, decode w = .error e) ∧ t.reply.response = some .illegalCommand) ∨
    ((∃ i, decode w = .ok i) ∧ (t.reply.response = some .outOfBounds ∨ t.reply.response = some .ok)) := by
  rcases issue_cases h with ⟨hfaulted, -⟩ | ⟨-, herror, rfl⟩ | ⟨-, i, hd, hx⟩
  · simp [hf] at hfaulted
  · exact .inl ⟨herror, rfl⟩
  · rcases exec_response hx with rfl | ⟨hok, -⟩
    · exact .inr ⟨⟨i, hd⟩, .inl rfl⟩
    · exact .inr ⟨⟨i, hd⟩, .inr (congrArg Reply.response hok)⟩

/-- Settles O17: a faulted unit refuses or reads; else the register number settles the response to a HostWrite or a
HostRead, and decoding, which tests the reserved field before any operand, comes before a command's own test. -/
theorem faultPriority : Obligations.FaultPriority := by
  refine ⟨fun a s t ha h => ⟨fun hf => ?faulted, fun hf => ?ready⟩, fun w s hf _ hrsv => ?reserved⟩
  case faulted =>
    rcases perform_of_faulted hf ha h with rfl | ⟨n, r, rfl, hr, rfl⟩
    · exact ⟨rfl, .inl rfl⟩
    · have hn : ¬12 ≤ n.val := by simp [← regOfNumber_eq_none_iff, hr]
      exact ⟨rfl, .inr ⟨n, _, rfl, by omega, rfl⟩⟩
  case ready =>
    cases a with
    | reset => exact absurd rfl ha
    | hostWrite n v =>
      cases h
      by_cases hn : n = 2 ∨ 11 ≤ n.val <;> simp [hostWrite_response hf, hn]
    | hostRead n =>
      cases h
      by_cases hn : 12 ≤ n.val <;> simp [hostRead_response hf, hn]
    | issue w =>
      rcases issue_response hf h with ⟨⟨e, hd⟩, hr⟩ | ⟨⟨i, hd⟩, hr | hr⟩ <;> simp [hd, hr]
  case reserved =>
    rw [← rsv_eq_div_mod] at hrsv
    obtain ⟨e, hd⟩ := (decode_error_iff w).mpr (by omega)
    exact (issue_illegal hf hd).trans (congrArg _ (raise_illegalCommand s))

/-! ## Runs of host actions (R108) -/

theorem perform_next (a : Action) (s : State) : ∃ t, perform a s = .next t := by
  cases a with
  | reset => exact ⟨_, rfl⟩
  | hostWrite n v => exact ⟨_, rfl⟩
  | hostRead n => exact ⟨_, rfl⟩
  | issue w =>
    cases hf : s.faulted with
    | true => exact ⟨_, issue_faulted hf w⟩
    | false =>
      cases hd : decode w with
      | error e => exact ⟨_, issue_illegal hf hd⟩
      | ok i => simpa only [perform, issue_decoded hf hd] using exec_next i s

/-- From an unfaulted unit, an action answers something other than OK exactly when it leaves the unit faulted. -/
theorem response_ok_iff_not_faulted {a : Action} {s t : State} (hf : s.faulted = false) (h : perform a s = .next t) :
    (t.reply.response = none ∨ t.reply.response = some .ok) ↔ t.faulted = false := by
  cases perform_effect h with
  | reset => simp [Reply.response]
  | refused _ hfaulted => simp [hf] at hfaulted
  | raised _ f => simp [Reply.response, f.response_ne_ok]
  | read => exact iff_of_true (.inr rfl) hf
  | wrote _ _ hw => exact iff_of_true (.inr rfl) ((faulted_congr (writeReg_frame hw).1).trans hf)
  | completed _ _ _ hok hst => exact iff_of_true (.inr (congrArg Reply.response hok)) ((faulted_congr hst).trans hf)

/-- Every program runs to its end (R130). -/
theorem exists_runActions : ∀ (actions : List Action) (s : State), ∃ u replies, runActions actions s = some (u, replies)
  | [], s => ⟨s, [], rfl⟩
  | a :: rest, s => by
    obtain ⟨t, ht⟩ := perform_next a s
    obtain ⟨u, replies, hrun⟩ := exists_runActions rest t
    exact ⟨u, t.reply :: replies, by simp [runActions_cons ht, hrun]⟩

/-- A run that reaches its end performed its first action, then the rest. -/
theorem runActions_cons_cases {a : Action} {rest : List Action} {s u : State} {replies : List Reply}
    (h : runActions (a :: rest) s = some (u, replies)) :
    ∃ t later, perform a s = .next t ∧ runActions rest t = some (u, later) ∧ replies = t.reply :: later := by
  obtain ⟨t, ht⟩ := perform_next a s
  rw [runActions_cons ht] at h
  obtain ⟨⟨_, later⟩, hrun, hpair⟩ := Option.map_eq_some_iff.mp h
  cases hpair
  exact ⟨t, later, ht, hrun, rfl⟩

/-- Without Reset a run does not leave the faulted state (R108, R109). -/
theorem runActions_faulted {actions : List Action} {s u : State} {replies : List Reply} (hf : s.faulted = true)
    (hnoReset : ∀ a ∈ actions, a ≠ .reset) (h : runActions actions s = some (u, replies)) : u.faulted = true := by
  induction actions generalizing s replies with
  | nil => cases h; exact hf
  | cons a rest ih =>
    obtain ⟨ha, hrest⟩ := List.forall_mem_cons.mp hnoReset
    obtain ⟨t, later, ht, hrun, -⟩ := runActions_cons_cases h
    have hst : t.status = s.status := (sameUnit_of_faulted hf ha ht).2
    exact ih ((faulted_congr hst).trans hf) hrest hrun

/-- A run from an unfaulted unit without a response other than OK stays unfaulted throughout, Resets or not. -/
theorem not_faulted_of_allOk {actions : List Action} {s u : State} {replies : List Reply} (hf : s.faulted = false)
    (h : runActions actions s = some (u, replies)) (hok : AllOk replies) : u.faulted = false := by
  induction actions generalizing s replies with
  | nil => cases h; exact hf
  | cons a rest ih =>
    obtain ⟨t, later, ht, hrun, rfl⟩ := runActions_cons_cases h
    obtain ⟨hfirst, hlater⟩ := (allOk_cons _ _).mp hok
    exact ih ((response_ok_iff_not_faulted hf ht).mp hfirst) hrun hlater

/-- Without Reset a run that ends unfaulted was never faulted, so each response was OK. -/
theorem allOk_of_not_faulted {actions : List Action} {s u : State} {replies : List Reply} (hf : s.faulted = false)
    (hnoReset : ∀ a ∈ actions, a ≠ .reset) (h : runActions actions s = some (u, replies)) (hu : u.faulted = false) :
    AllOk replies := by
  induction actions generalizing s replies with
  | nil => cases h; exact allOk_nil
  | cons a rest ih =>
    obtain ⟨-, hrest⟩ := List.forall_mem_cons.mp hnoReset
    obtain ⟨t, later, ht, hrun, rfl⟩ := runActions_cons_cases h
    have htf : t.faulted = false := by
      by_contra htf
      simp [runActions_faulted (Bool.eq_true_of_not_eq_false htf) hrest hrun] at hu
    exact (allOk_cons _ _).mpr ⟨(response_ok_iff_not_faulted hf ht).mpr htf, ih htf hrest hrun⟩

/-- Settles O24: every program runs; the two directions are by induction on it; a first Reset leaves the unit unfaulted
and answers nothing. -/
theorem allOkIffNotFaulted : Obligations.AllOkIffNotFaulted := by
  refine ⟨fun actions s hf hnoReset => ?_, fun actions s hnoReset => ?_, fun actions s hf => ?_⟩
  · obtain ⟨u, replies, hrun⟩ := exists_runActions actions s
    exact ⟨u, replies, hrun, not_faulted_of_allOk hf hrun, allOk_of_not_faulted hf hnoReset hrun⟩
  · have hf : (resetUnit s).faulted = false := resetUnit_faulted s
    obtain ⟨u, replies, hrun⟩ := exists_runActions actions (resetUnit s)
    refine ⟨u, .silent :: replies, by simp [runActions_cons (show perform .reset s = _ from rfl), hrun], ?_⟩
    rw [allOk_cons, and_iff_right (.inl rfl)]
    exact ⟨not_faulted_of_allOk hf hrun, allOk_of_not_faulted hf hnoReset hrun⟩
  · obtain ⟨u, replies, hrun⟩ := exists_runActions actions s
    exact ⟨u, replies, hrun, not_faulted_of_allOk hf hrun⟩

end Sys2Proof.Machine
end

section
/-! PROOFS. Reset and hazards (70_reset_and_hazards.md): what the Reset action leaves (R120), and that no step is stuck
(R130). -/

namespace Sys2Proof.Machine

open Sys2Proof Sys2Proof.Safety

/-- Settles O9, by the pending actions: a step without one is idle, else it is the first one, which always has a next
state (`perform_next`). -/
theorem stepAlwaysAnswersNext : Obligations.StepAlwaysAnswersNext := by
  intro s
  cases hp : s.pending with
  | nil => exact ⟨s, stepWithoutActionHolds s hp⟩
  | cons a rest =>
    obtain ⟨t, ht⟩ := perform_next a { s with pending := rest }
    exact ⟨t, (stepPerformsNextAction s a rest hp).trans ht⟩

/-- Of the old state the data after a Reset depend on the draw count alone (log entry 2). -/
theorem sameData_resetUnit_of_draws_eq {s s' : State} (hdraws : s.draws = s'.draws) :
    SameData (resetUnit s) (resetUnit s') := by
  simp [SameData, hdraws]

/-- Settles O14: Reset leads to `resetUnit s`, whose fields are given by its laws; its reply is silent, which is no
response. -/
theorem resetActionRedraws : Obligations.ResetActionRedraws := by
  refine ⟨fun s => ?_, ?_⟩
  · have hsilent : (resetUnit s).reply.response = none := congrArg Reply.response (resetUnit_reply s)
    exact ⟨resetUnit s, rfl, resetUnit_status s, resetUnit_faulted s, hsilent, resetUnit_pending s, resetUnit_draws s⟩
  · rintro s s' _ _ hdraws ⟨⟩ ⟨⟩
    exact sameData_resetUnit_of_draws_eq hdraws

end Sys2Proof.Machine
end
